-- ==== Sys2Proof/Word.lean ====
section
/-! DEFINITION. The widths of the block's ports (10_state.md R6). -/

namespace Sys2Proof

/-- The control word on port `op` (30_encoding.md R14). -/
abbrev ControlWord := BitVec 5

/-- The value on one operand port: `a_re`, `a_im`, `b_re` or `b_im` (10_state.md R6). -/
abbrev Port := BitVec 64

/-- The value on one result port: `y_re` or `y_im` (10_state.md R6). -/
abbrev ResultPort := BitVec 128

end Sys2Proof
end

