-- ==== Sys2Proof/Syntax.lean ====
section
/-! DEFINITION. The operations of the block (one constructor per row of spec/opcode_table.json), and the lines and
presentations of the driver's program (30_encoding.md R20, 70_reset_and_hazards.md R61). -/

namespace Sys2Proof

/-- The operand kind, control bit `C` (30_encoding.md R17). -/
inductive Kind where
  | scalar
  | complex
  deriving DecidableEq, Repr

/-- The precision tier, control field `T` (30_encoding.md R16). -/
inductive Tier where
  | truncated
  | saturated
  | extended
  deriving DecidableEq, Repr

/-- The nominal width, control field `W` (30_encoding.md R15). -/
inductive Width where
  | w16
  | w32
  | w64
  deriving DecidableEq, Repr

/-- The 18 operations of 30_encoding.md section 2. None has an immediate or a register field (R19): the operands are
the values on the operand ports. -/
inductive Instr where
  | addT16
  | addT32
  | addT64
  | addS16
  | addS32
  | addS64
  | addL16
  | addL32
  | addL64
  | caddT16
  | caddT32
  | caddT64
  | caddS16
  | caddS32
  | caddS64
  | caddL16
  | caddL32
  | caddL64
  deriving DecidableEq, Repr

/-- A scalar source of an assembler line (30_encoding.md R20). -/
inductive ScalarSource where
  /-- A signed decimal integer. -/
  | dec (v : Int)
  /-- A hex port pattern, the 64-bit value placed on the port. -/
  | hex (p : Port)
  /-- The name `r<k>` of a result the driver holds. -/
  | result (k : Nat)
  deriving DecidableEq, Repr

/-- A source of an assembler line (30_encoding.md R20): one scalar source or result name, or a pair `(re, im)`. -/
inductive Source where
  | one (x : ScalarSource)
  | pair (re im : ScalarSource)
  deriving DecidableEq, Repr

/-- One assembler line, `<mnemonic> <dst>, <src1>, <src2>` (30_encoding.md R20). -/
structure Line where
  instr : Instr
  dst   : Nat
  src1  : Source
  src2  : Source
  deriving DecidableEq, Repr

/-- One operation as the driver presents it (70_reset_and_hazards.md R60, R61): any control word, a reserved one
included, what goes on the operand ports, and the name under which the driver keeps what it samples (`none`: it keeps
nothing; DESIGN CHOICE, log entry 18). -/
structure Presentation where
  op  : ControlWord
  dst : Option Nat
  a   : Source
  b   : Source
  deriving DecidableEq, Repr

end Sys2Proof
end

