-- ==== Sys2Proof/Decode.lean ====
section
/-! DEFINITION. The control word: its fields, the decoder (total, rejecting by name), the encoder, and the
assembler's spelling of a line (30_encoding.md R14 to R20). -/

namespace Sys2Proof

/-! ### The columns of the opcode map (30_encoding.md section 2) -/

/-- The column "kind". -/
def Instr.kind : Instr → Kind
  | .addT16 | .addT32 | .addT64 | .addS16 | .addS32 | .addS64 | .addL16 | .addL32 | .addL64 => .scalar
  | .caddT16 | .caddT32 | .caddT64 | .caddS16 | .caddS32 | .caddS64 | .caddL16 | .caddL32 | .caddL64 => .complex

/-- The column "tier". -/
def Instr.tier : Instr → Tier
  | .addT16 | .addT32 | .addT64 | .caddT16 | .caddT32 | .caddT64 => .truncated
  | .addS16 | .addS32 | .addS64 | .caddS16 | .caddS32 | .caddS64 => .saturated
  | .addL16 | .addL32 | .addL64 | .caddL16 | .caddL32 | .caddL64 => .extended

/-- The column "N". -/
def Instr.width : Instr → Width
  | .addT16 | .addS16 | .addL16 | .caddT16 | .caddS16 | .caddL16 => .w16
  | .addT32 | .addS32 | .addL32 | .caddT32 | .caddS32 | .caddL32 => .w32
  | .addT64 | .addS64 | .addL64 | .caddT64 | .caddS64 | .caddL64 => .w64

/-- The nominal width N in bits (30_encoding.md R15; 00_scope.md R4). -/
def Width.bits : Width → Nat
  | .w16 => 16
  | .w32 => 32
  | .w64 => 64

/-- The nominal width N of an operation, in bits. -/
def Instr.bits (i : Instr) : Nat := i.width.bits

/-- The result width of one component, in bits: N, or 2N in the extended tier (00_scope.md section 4). -/
def Instr.resultBits (i : Instr) : Nat :=
  match i.tier with
  | .truncated => i.bits
  | .saturated => i.bits
  | .extended => 2 * i.bits

/-- The operation of a kind, a tier and a width. -/
def Instr.ofFields : Kind → Tier → Width → Instr
  | .scalar, .truncated, .w16 => .addT16
  | .scalar, .truncated, .w32 => .addT32
  | .scalar, .truncated, .w64 => .addT64
  | .scalar, .saturated, .w16 => .addS16
  | .scalar, .saturated, .w32 => .addS32
  | .scalar, .saturated, .w64 => .addS64
  | .scalar, .extended, .w16 => .addL16
  | .scalar, .extended, .w32 => .addL32
  | .scalar, .extended, .w64 => .addL64
  | .complex, .truncated, .w16 => .caddT16
  | .complex, .truncated, .w32 => .caddT32
  | .complex, .truncated, .w64 => .caddT64
  | .complex, .saturated, .w16 => .caddS16
  | .complex, .saturated, .w32 => .caddS32
  | .complex, .saturated, .w64 => .caddS64
  | .complex, .extended, .w16 => .caddL16
  | .complex, .extended, .w32 => .caddL32
  | .complex, .extended, .w64 => .caddL64

/-! ### The fields of the control word -/

/-- Field `W = op[1:0]` (30_encoding.md R14). -/
def fieldW (op : ControlWord) : BitVec 2 := op.extractLsb' 0 2

/-- Field `T = op[3:2]` (30_encoding.md R14). -/
def fieldT (op : ControlWord) : BitVec 2 := op.extractLsb' 2 2

/-- Field `C = op[4]` (30_encoding.md R14). -/
def fieldC (op : ControlWord) : BitVec 1 := op.extractLsb' 4 1

/-- The width that `W` names; `11` is reserved (30_encoding.md R15). -/
def decodeWidth (w : BitVec 2) : Option Width :=
  if w = 0b00#2 then some .w16 else if w = 0b01#2 then some .w32 else if w = 0b10#2 then some .w64 else none

/-- The tier that `T` names; `11` is reserved (30_encoding.md R16). -/
def decodeTier (t : BitVec 2) : Option Tier :=
  if t = 0b00#2 then some .truncated
  else if t = 0b01#2 then some .saturated
  else if t = 0b10#2 then some .extended
  else none

/-- The kind that `C` names (30_encoding.md R17). -/
def decodeKind (c : BitVec 1) : Kind := if c = 0b0#1 then .scalar else .complex

/-- Why a word is no operation. -/
inductive Rejection where
  /-- A reserved control word, `W = 11` or `T = 11` (30_encoding.md R18). Safe. -/
  | reservedControlWord (op : ControlWord)
  /-- A number that does not fit the 5-bit control word (30_encoding.md R14). DESIGN CHOICE, log entry 13, safe. -/
  | notAControlWord (w : Nat)
  deriving DecidableEq, Repr

/-- The decoder: every one of the 32 control words is an operation or rejected as reserved (30_encoding.md R14 to
R18). -/
def decode (op : ControlWord) : Except Rejection Instr :=
  match decodeTier (fieldT op), decodeWidth (fieldW op) with
  | some t, some w => .ok (Instr.ofFields (decodeKind (fieldC op)) t w)
  | _, _ => .error (.reservedControlWord op)

/-- The decoder on any number: one above 31 is no control word. -/
def decodeNat (w : Nat) : Except Rejection Instr :=
  if w < 32 then decode (BitVec.ofNat 5 w) else .error (.notAControlWord w)

/-- The instruction of an opcode-table word of `nbits` bits, bit 0 the least significant. -/
def decodeTableWord (nbits w : Nat) : Option Instr :=
  match decodeNat (w % 2 ^ nbits) with
  | .ok i => some i
  | .error _ => none

/-! ### The encoder, from the same fields -/

/-- `W` of a width (30_encoding.md R15). -/
def encodeWidth : Width → BitVec 2
  | .w16 => 0b00#2
  | .w32 => 0b01#2
  | .w64 => 0b10#2

/-- `T` of a tier (30_encoding.md R16). -/
def encodeTier : Tier → BitVec 2
  | .truncated => 0b00#2
  | .saturated => 0b01#2
  | .extended => 0b10#2

/-- `C` of a kind (30_encoding.md R17). -/
def encodeKind : Kind → BitVec 1
  | .scalar => 0b0#1
  | .complex => 0b1#1

/-- The control word of an operation: `C`, `T`, `W` from bit 4 down (30_encoding.md R14). -/
def encode (i : Instr) : ControlWord := encodeKind i.kind ++ encodeTier i.tier ++ encodeWidth i.width

/-! ### Spelling (30_encoding.md R20, 92_eei_decisions.md D9) -/

/-- The mnemonic: `ADD.` or `CADD.`, then `T`, `S` or `L` for the tier, then the nominal width. -/
def Instr.mnemonic (i : Instr) : String :=
  (match i.kind with
    | .scalar => "ADD."
    | .complex => "CADD.") ++
  (match i.tier with
    | .truncated => "T"
    | .saturated => "S"
    | .extended => "L") ++
  (match i.width with
    | .w16 => "16"
    | .w32 => "32"
    | .w64 => "64")

/-- The 18 operations in the order of the opcode map. -/
def allInstrs : List Instr :=
  [.addT16, .addT32, .addT64, .addS16, .addS32, .addS64, .addL16, .addL32, .addL64,
    .caddT16, .caddT32, .caddT64, .caddS16, .caddS32, .caddS64, .caddL16, .caddL32, .caddL64]

/-- The operation that a mnemonic names. -/
def instrOfMnemonic (m : String) : Option Instr := allInstrs.find? (fun i => i.mnemonic == m)

/-- A signed decimal integer. -/
def decimalText : Int → String
  | .ofNat n => n.repr
  | .negSucc n => "-" ++ (n + 1).repr

/-- One hex digit, upper case. -/
def hexDigit (d : Nat) : Char := if d < 10 then Char.ofNat (48 + d) else Char.ofNat (55 + d)

/-- A port pattern with all its 16 hex digits. -/
def hexText (p : Port) : String :=
  "0x" ++ String.ofList ((List.range 16).map (fun j => hexDigit (p.toNat / 16 ^ (15 - j) % 16)))

/-- The spelling of a scalar source. -/
def ScalarSource.text : ScalarSource → String
  | .dec v => decimalText v
  | .hex p => hexText p
  | .result k => "r" ++ k.repr

/-- The spelling of a source. -/
def Source.text : Source → String
  | .one x => x.text
  | .pair re im => "(" ++ re.text ++ ", " ++ im.text ++ ")"

/-- The spelling of a line, `<mnemonic> <dst>, <src1>, <src2>`. -/
def Line.text (l : Line) : String :=
  l.instr.mnemonic ++ " r" ++ l.dst.repr ++ ", " ++ l.src1.text ++ ", " ++ l.src2.text

/-- The presentation that a line stands for (30_encoding.md R20). -/
def Line.assemble (l : Line) : Presentation :=
  { op := encode l.instr, dst := some l.dst, a := l.src1, b := l.src2 }

end Sys2Proof
end

