-- ==== Sys2Proof/Machine/Operands.lean ====
section
/-! DEFINITION. The spec's notation on bit patterns and integers (00_scope.md section 5) and how an operation reads an
operand port (10_state.md R7, 30_encoding.md R19). -/

namespace Sys2Proof.Machine

/-- `sval_N(p)`: the signed two's-complement value of the pattern `p`. -/
def sval (n : Nat) (p : BitVec n) : Int := if p.msb then (p.toNat : Int) - 2 ^ n else p.toNat

/-- `uval_N(p)`: the unsigned value of the pattern `p`. -/
def uval (n : Nat) (p : BitVec n) : Int := p.toNat

/-- `bits_M(v)`: the pattern of `v mod 2^M`. -/
def bits (m : Nat) (v : Int) : BitVec m := BitVec.ofNat m (v % 2 ^ m).toNat

/-- `sext_M(p)`: sign extension. -/
def sext (n m : Nat) (p : BitVec n) : BitVec m := bits m (sval n p)

/-- `zext_M(p)`: zero extension. -/
def zext (n m : Nat) (p : BitVec n) : BitVec m := bits m (uval n p)

/-- `wrap_N(v) = sval_N(bits_N(v))`: two's-complement wrap modulo 2^N (90_conflicts.md C1; PRESUMED by the spec
itself, 93_implementation_defined.md G1, log entry 9). -/
def wrap (n : Nat) (v : Int) : Int := sval n (bits n v)

/-- `MAX_N`. -/
def maxOf (n : Nat) : Int := 2 ^ (n - 1) - 1

/-- `MIN_N`. -/
def minOf (n : Nat) : Int := -2 ^ (n - 1)

/-- `port[N-1:0]`. -/
def lowBits (n : Nat) (port : Port) : BitVec n := port.extractLsb' 0 n

/-- `opnd_N(port) = sval_N(port[N-1:0])`: an operand of nominal width N; bits `[63:N]` are ignored (10_state.md R7). -/
def opnd (n : Nat) (port : Port) : Int := sval n (lowBits n port)

/-- The real number that the fixed-point value `v` stands for at radix `r`, `v / 2^r` (00_scope.md R2). -/
def realOf (r : Nat) (v : Int) : ℚ := (v : ℚ) / 2 ^ r

/-- `fix(x, r)`: the fixed-point encoding of `x` at radix `r`, rounded half away from zero (00_scope.md section 5,
notation only). -/
def fix (x : ℚ) (r : Nat) : Int :=
  let y := x * 2 ^ r
  let z := if y < 0 then y - 1 / 2 else y + 1 / 2
  z.num.tdiv z.den

end Sys2Proof.Machine
end

