-- ==== Sys2Proof/Machine/Saturation.lean ====
section
/-! DEFINITION. The clamp, output stage of the saturated tier (40_saturation.md). -/

namespace Sys2Proof.Machine

/-- The source's `saturate(value, limit)` for signed ranges: `value` clamped to `[-limit-1, limit]` (40_saturation.md,
source text and R21; `limit` is `MAX_N`, R23, 90_conflicts.md C2). -/
def saturate (value limit : Int) : Int :=
  if value > limit then limit else if value < -limit - 1 then -limit - 1 else value

/-- `sat_N(v)`, the signed clamp (40_saturation.md R21, R23). -/
def sat (n : Nat) (v : Int) : Int :=
  if v > maxOf n then maxOf n else if v < minOf n then minOf n else v

/-- `usat_N(v)`, the unsigned clamp; no operation uses it (40_saturation.md R22, R23). -/
def usat (n : Nat) (v : Int) : Int :=
  if v > 2 ^ n - 1 then 2 ^ n - 1 else if v < 0 then 0 else v

end Sys2Proof.Machine
end

