-- ==== Sys2Proof/Machine/State.lean ====
section
/-! DEFINITION. The state: the values on the block's ports (10_state.md R6), the driver's program and the results it
holds (70_reset_and_hazards.md R61, 30_encoding.md R20); the reasons a step can stop; reset. -/

namespace Sys2Proof.Machine

/-- What the driver samples after one operation: the values on both result ports (70_reset_and_hazards.md R60). -/
structure Sample where
  yRe : ResultPort
  yIm : ResultPort
  deriving DecidableEq, Repr

/-- The block has no architectural state (10_state.md R5). The first seven fields are the values standing on its
ports, the exact list of R6. The next two are the driver's, and `presented` is the model's own (log entry 4). -/
structure State where
  /-- Input port `op`, the control word. -/
  op        : ControlWord
  /-- Input port `a_re`. -/
  aRe       : Port
  /-- Input port `a_im`. -/
  aIm       : Port
  /-- Input port `b_re`. -/
  bRe       : Port
  /-- Input port `b_im`. -/
  bIm       : Port
  /-- Output port `y_re`. -/
  yRe       : ResultPort
  /-- Output port `y_im`. -/
  yIm       : ResultPort
  /-- The operations the driver has yet to present, the next one first (70_reset_and_hazards.md R61). -/
  program   : List Presentation
  /-- The results the driver holds, by name, names strictly rising (30_encoding.md R20). -/
  results   : List (Nat × Sample)
  /-- How many operations the driver has presented; it only feeds the free values of `Config`. -/
  presented : Nat
  deriving DecidableEq, Repr

/-- No operation faults: the block raises no exception for any operand value (60_exceptions.md R50) and has no trap
(R53). The type has no constructor; nothing raises a fault. -/
inductive Fault where
  deriving DecidableEq, Repr

/-- Why a step has no next state. -/
inductive Refusal where
  /-- Raised by an arm of `exec` whose instruction has no meaning yet. No arm of this model raises it. Safe. -/
  | notModelled (mnemonic : String)
  /-- Raised by `evaluate` when port `op` holds a reserved control word: its outputs are unspecified, and a model
  refuses the operation (30_encoding.md R18). Safe. -/
  | reservedControlWord (op : ControlWord)
  deriving DecidableEq, Repr

/-- The block has no reset (70_reset_and_hazards.md R56). This is the machine from power-up: the driver holds every
input port at 0 (DESIGN CHOICE, log entry 1, unsafe), the outputs are the function of those inputs (R56, log entry 2),
and the driver has nothing to present and holds nothing (DESIGN CHOICE, log entry 3). -/
def State.reset : State where
  op := 0
  aRe := 0
  aIm := 0
  bRe := 0
  bIm := 0
  yRe := 0
  yIm := 0
  program := []
  results := []
  presented := 0

end Sys2Proof.Machine
end

