-- ==== Sys2Proof/Machine/Ops.lean ====
section
/-! DEFINITION. The shared operations: the tier, one lane of the adder, driving the result ports. There is no memory
(20_memory.md R11). There is no exception, trap entry or trap return to model (60_exceptions.md R50, R53). -/

namespace Sys2Proof.Machine

/-- The integer result that a tier delivers for the exact sum `s` (41_scalar_add.md R27, R28, R29). -/
def tierResult (t : Tier) (n : Nat) (s : Int) : Int :=
  match t with
  | .truncated => wrap n s
  | .saturated => sat n s
  | .extended => s

/-- The exact sum of two operands of nominal width N (41_scalar_add.md R26). -/
def exactSum (n : Nat) (a b : Port) : Int := opnd n a + opnd n b

/-- One lane: the tier's result for the sum of two operand ports, as it stands on a result port (10_state.md R8). -/
def lane (t : Tier) (n : Nat) (a b : Port) : ResultPort := bits 128 (tierResult t n (exactSum n a b))

/-- `y_re <- re; y_im <- im`. -/
def drive (re im : ResultPort) (s : State) : State := { s with yRe := re, yIm := im }

/-- A scalar operation: the sum of `a_re` and `b_re` on `y_re`, zero on `y_im` (41_scalar_add.md R26, 10_state.md
R9). -/
def addScalar (t : Tier) (n : Nat) (s : State) : State := drive (lane t n s.aRe s.bRe) (bits 128 0) s

/-- A complex operation: one lane for the real parts, one for the imaginary parts (42_complex_add.md R39, R40). -/
def addComplex (t : Tier) (n : Nat) (s : State) : State :=
  drive (lane t n s.aRe s.bRe) (lane t n s.aIm s.bIm) s

end Sys2Proof.Machine
end

