-- ==== Sys2Proof/Machine/ComplexAdd.lean ====
section
/-! DEFINITION. The complex operations (42_complex_add.md R41 to R49). -/

namespace Sys2Proof.Machine

/-- `CADD.T16` (42_complex_add.md R41). -/
def execCaddT16 (s : State) : Host.Outcome State Fault Refusal := .next (addComplex .truncated 16 s)

/-- `CADD.T32` (42_complex_add.md R42). -/
def execCaddT32 (s : State) : Host.Outcome State Fault Refusal := .next (addComplex .truncated 32 s)

/-- `CADD.T64` (42_complex_add.md R43). -/
def execCaddT64 (s : State) : Host.Outcome State Fault Refusal := .next (addComplex .truncated 64 s)

/-- `CADD.S16` (42_complex_add.md R44). -/
def execCaddS16 (s : State) : Host.Outcome State Fault Refusal := .next (addComplex .saturated 16 s)

/-- `CADD.S32` (42_complex_add.md R45). -/
def execCaddS32 (s : State) : Host.Outcome State Fault Refusal := .next (addComplex .saturated 32 s)

/-- `CADD.S64` (42_complex_add.md R46). -/
def execCaddS64 (s : State) : Host.Outcome State Fault Refusal := .next (addComplex .saturated 64 s)

/-- `CADD.L16` (42_complex_add.md R47). -/
def execCaddL16 (s : State) : Host.Outcome State Fault Refusal := .next (addComplex .extended 16 s)

/-- `CADD.L32` (42_complex_add.md R48). -/
def execCaddL32 (s : State) : Host.Outcome State Fault Refusal := .next (addComplex .extended 32 s)

/-- `CADD.L64` (42_complex_add.md R49). -/
def execCaddL64 (s : State) : Host.Outcome State Fault Refusal := .next (addComplex .extended 64 s)

end Sys2Proof.Machine
end

