-- ==== Sys2Proof/Machine/ScalarAdd.lean ====
section
/-! DEFINITION. The scalar operations (41_scalar_add.md R30 to R38). -/

namespace Sys2Proof.Machine

/-- `ADD.T16` (41_scalar_add.md R30). -/
def execAddT16 (s : State) : Host.Outcome State Fault Refusal := .next (addScalar .truncated 16 s)

/-- `ADD.T32` (41_scalar_add.md R31). -/
def execAddT32 (s : State) : Host.Outcome State Fault Refusal := .next (addScalar .truncated 32 s)

/-- `ADD.T64` (41_scalar_add.md R32). -/
def execAddT64 (s : State) : Host.Outcome State Fault Refusal := .next (addScalar .truncated 64 s)

/-- `ADD.S16` (41_scalar_add.md R33). -/
def execAddS16 (s : State) : Host.Outcome State Fault Refusal := .next (addScalar .saturated 16 s)

/-- `ADD.S32` (41_scalar_add.md R34). -/
def execAddS32 (s : State) : Host.Outcome State Fault Refusal := .next (addScalar .saturated 32 s)

/-- `ADD.S64` (41_scalar_add.md R35). -/
def execAddS64 (s : State) : Host.Outcome State Fault Refusal := .next (addScalar .saturated 64 s)

/-- `ADD.L16` (41_scalar_add.md R36). -/
def execAddL16 (s : State) : Host.Outcome State Fault Refusal := .next (addScalar .extended 16 s)

/-- `ADD.L32` (41_scalar_add.md R37). -/
def execAddL32 (s : State) : Host.Outcome State Fault Refusal := .next (addScalar .extended 32 s)

/-- `ADD.L64` (41_scalar_add.md R38). -/
def execAddL64 (s : State) : Host.Outcome State Fault Refusal := .next (addScalar .extended 64 s)

end Sys2Proof.Machine
end

