-- ==== Sys2Proof/Machine/Dispatch.lean ====
section
/-! DEFINITION. One arm per operation of the opcode table. -/

namespace Sys2Proof.Machine

def exec (i : Instr) (s : State) : Host.Outcome State Fault Refusal :=
  match i with
  | .addT16 => Sys2Proof.Machine.execAddT16 s
  | .addT32 => Sys2Proof.Machine.execAddT32 s
  | .addT64 => Sys2Proof.Machine.execAddT64 s
  | .addS16 => Sys2Proof.Machine.execAddS16 s
  | .addS32 => Sys2Proof.Machine.execAddS32 s
  | .addS64 => Sys2Proof.Machine.execAddS64 s
  | .addL16 => Sys2Proof.Machine.execAddL16 s
  | .addL32 => Sys2Proof.Machine.execAddL32 s
  | .addL64 => Sys2Proof.Machine.execAddL64 s
  | .caddT16 => Sys2Proof.Machine.execCaddT16 s
  | .caddT32 => Sys2Proof.Machine.execCaddT32 s
  | .caddT64 => Sys2Proof.Machine.execCaddT64 s
  | .caddS16 => Sys2Proof.Machine.execCaddS16 s
  | .caddS32 => Sys2Proof.Machine.execCaddS32 s
  | .caddS64 => Sys2Proof.Machine.execCaddS64 s
  | .caddL16 => Sys2Proof.Machine.execCaddL16 s
  | .caddL32 => Sys2Proof.Machine.execCaddL32 s
  | .caddL64 => Sys2Proof.Machine.execCaddL64 s

end Sys2Proof.Machine
end

