-- ==== Sys2Proof/Config.lean ====
section
/-! DEFINITION. What the spec leaves open: constants without a body, so that no proof can use a value of them. -/

namespace Sys2Proof

/-- The settle time `T_SETTLE`, an OPEN parameter (70_reset_and_hazards.md R59, 92_eei_decisions.md D17), counted in
some unit of time that the spec does not name. Log entry 7, safe. -/
opaque Config.tSettle : Nat

/-- What the driver places on a real port when a line names result `k` (second argument) and the driver holds no
result of that name: a free value, drawn anew for each presentation (first argument). 30_encoding.md R20 is silent.
DESIGN CHOICE, log entry 4, safe. -/
opaque Config.unheldRe : Nat → Nat → Port

/-- The imaginary part of `Config.unheldRe`. DESIGN CHOICE, log entry 4, safe. -/
opaque Config.unheldIm : Nat → Nat → Port

end Sys2Proof
end

