-- ==== Sys2Proof/WellFormed.lean ====
section
/-! DEFINITION. Which lines and programs the assembler syntax admits (30_encoding.md R20), and which control words are
operations (R18). Every `Instr` is well formed: it has no operand field. -/

namespace Sys2Proof

/-- The control word names an operation: neither `W` nor `T` is `11` (30_encoding.md R18). -/
abbrev Legal (op : ControlWord) : Prop := fieldW op ≠ 0b11#2 ∧ fieldT op ≠ 0b11#2

/-- A scalar operation takes a scalar source or a result name; a complex one takes a pair or a result name
(30_encoding.md R20). -/
def Source.fits : Kind → Source → Bool
  | .scalar, .one _ => true
  | .scalar, .pair _ _ => false
  | .complex, .one (.result _) => true
  | .complex, .one (.dec _) => false
  | .complex, .one (.hex _) => false
  | .complex, .pair _ _ => true

/-- The result names a scalar source uses. -/
def ScalarSource.names : ScalarSource → List Nat
  | .dec _ => []
  | .hex _ => []
  | .result k => [k]

/-- The result names a source uses. -/
def Source.names : Source → List Nat
  | .one x => x.names
  | .pair re im => re.names ++ im.names

/-- A line whose sources fit its operation and name only results in `held`. -/
def Line.wf (held : List Nat) (l : Line) : Bool :=
  l.src1.fits l.instr.kind && l.src2.fits l.instr.kind &&
    l.src1.names.all (fun k => held.contains k) && l.src2.names.all (fun k => held.contains k)

/-- A program whose lines are well formed, each naming only results held before it or written by an earlier line. -/
def programWf (held : List Nat) : List Line → Bool
  | [] => true
  | l :: rest => l.wf held && programWf (l.dst :: held) rest

end Sys2Proof
end

