-- ==== Sys2Proof/Machine/Driver.lean ====
section
/-! DEFINITION. The driver: the results it holds under names, what a source places on an operand port, presenting an
operation and sampling its result (30_encoding.md R20, 70_reset_and_hazards.md R60, R61). -/

namespace Sys2Proof.Machine

/-! ### The results the driver holds, a list with its names strictly rising -/

/-- The names are strictly rising. -/
def resultsWf : List (Nat × Sample) → Bool
  | [] => true
  | e :: rest => rest.all (fun f => e.1 < f.1) && resultsWf rest

/-- The result held under name `k`. -/
def lookupResult (k : Nat) : List (Nat × Sample) → Option Sample
  | [] => none
  | e :: rest => if e.1 = k then some e.2 else lookupResult k rest

/-- Hold `y` under name `k`; an older result of that name is replaced (DEDUCED, log entry 17). -/
def storeResult (k : Nat) (y : Sample) : List (Nat × Sample) → List (Nat × Sample)
  | [] => [(k, y)]
  | e :: rest =>
    if k < e.1 then (k, y) :: e :: rest
    else if k = e.1 then (k, y) :: rest
    else e :: storeResult k y rest

/-! ### What a source places on the operand ports -/

/-- Bits `[63:0]` of a result port (30_encoding.md R20, 70_reset_and_hazards.md R61). -/
def forwardBits (y : ResultPort) : Port := y.extractLsb' 0 64

/-- What the name `r<k>` places on a real port, from held results `rs`; a free value where none is held (`n` tells
the presentation; log entry 4). -/
def forwardRe (n : Nat) (rs : List (Nat × Sample)) (k : Nat) : Port :=
  match lookupResult k rs with
  | some y => forwardBits y.yRe
  | none => Config.unheldRe n k

/-- What the name `r<k>` places on an imaginary port. -/
def forwardIm (n : Nat) (rs : List (Nat × Sample)) (k : Nat) : Port :=
  match lookupResult k rs with
  | some y => forwardBits y.yIm
  | none => Config.unheldIm n k

/-- What a scalar source places on a port: `bits_64(v)`, the hex pattern, or the forwarded real result (30_encoding.md
R20; for a name inside a pair, log entry 11). -/
def placeScalar (n : Nat) (rs : List (Nat × Sample)) : ScalarSource → Port
  | .dec v => bits 64 v
  | .hex p => p
  | .result k => forwardRe n rs k

/-- What a source places on its real port. -/
def placeRe (n : Nat) (rs : List (Nat × Sample)) : Source → Port
  | .one x => placeScalar n rs x
  | .pair re _ => placeScalar n rs re

/-- What a source places on its imaginary port. Beside a lone scalar literal it is 0: for a scalar operation DEDUCED
from the tables of 95_test_vectors.md section 3, and no output depends on it (10_state.md R9; log entry 10); for a
complex control word, whose sources 30_encoding.md R20 writes only as a pair or a result name, a DESIGN CHOICE on which
`y_im` depends (log entry 21, unsafe). `Line.wf` rejects such a line, and a step does not check it. -/
def placeIm (n : Nat) (rs : List (Nat × Sample)) : Source → Port
  | .one (.result k) => forwardIm n rs k
  | .one (.dec _) => bits 64 0
  | .one (.hex _) => bits 64 0
  | .pair _ im => placeScalar n rs im

/-! ### Presenting and sampling -/

/-- The driver places an operation's control word and operands on the input ports (70_reset_and_hazards.md R61). -/
def present (p : Presentation) (s : State) : State :=
  { s with
    op := p.op
    aRe := placeRe s.presented s.results p.a
    aIm := placeIm s.presented s.results p.a
    bRe := placeRe s.presented s.results p.b
    bIm := placeIm s.presented s.results p.b
    presented := s.presented + 1 }

/-- The values standing on the result ports. -/
def outputs (s : State) : Sample := { yRe := s.yRe, yIm := s.yIm }

/-- What the driver observes on the result ports when the inputs have been stable for `held` units of time: nothing
before `T_SETTLE` (70_reset_and_hazards.md R59, R60; 93_implementation_defined.md S2), the outputs from then on. While
`op` holds a reserved control word the outputs are unspecified and need not be stable (30_encoding.md R18), and the
model gives no observation, however long the inputs are held (DESIGN CHOICE, log entry 20, safe). -/
def sampleAfter (held : Nat) (s : State) : Option Sample :=
  if Config.tSettle ≤ held ∧ Legal s.op then some (outputs s) else none

/-- The driver keeps the settled outputs under the operation's destination name (30_encoding.md R20). -/
def collect (dst : Option Nat) (s : State) : State :=
  match dst with
  | none => s
  | some k => { s with results := storeResult k (outputs s) s.results }

/-- `collect` after an operation that completed. -/
def collectNext (dst : Option Nat) : Host.Outcome State Fault Refusal → Host.Outcome State Fault Refusal
  | .next s => .next (collect dst s)
  | .fault f => .fault f
  | .refused r => .refused r

/-- The presentation that leaves the operand ports as they stand and puts `op` on the control port. -/
def presentationOfWord (op : ControlWord) (s : State) : Presentation :=
  { op := op, dst := none, a := .pair (.hex s.aRe) (.hex s.aIm), b := .pair (.hex s.bRe) (.hex s.bIm) }

end Sys2Proof.Machine
end

