-- ==== Sys2Proof/Machine/Step.lean ====
section
/-! DEFINITION. One step is one operation, atomic and without time (70_reset_and_hazards.md R59): the driver presents
its next operation, the block evaluates its ports, the driver keeps what it samples. With nothing to present the block
evaluates the ports as they stand (R56; log entry 5). -/

namespace Sys2Proof.Machine

/-- The block evaluates the values on its ports; a reserved control word is refused (30_encoding.md R18). -/
def evaluate (s : State) : Host.Outcome State Fault Refusal :=
  match decode s.op with
  | .ok i => exec i s
  | .error _ => .refused (.reservedControlWord s.op)

/-- One operation. -/
def step (s : State) : Host.Outcome State Fault Refusal :=
  match s.program with
  | [] => evaluate s
  | p :: rest => collectNext p.dst (evaluate (present p { s with program := rest }))

/-- `s` with the control word `w` presented next, on the operand ports as they stand, before the rest of the program
(log entry 12). -/
def State.withFetchWord (s : State) (nbits w : Nat) : State :=
  { s with program := presentationOfWord (BitVec.ofNat 5 (w % 2 ^ nbits)) s :: s.program }

end Sys2Proof.Machine
end

