-- ==== Sys2Proof/Machine/Flags.lean ====
section
/-! DEFINITION. The block has no flag, status, overflow, carry or error output (10_state.md R10). What stands here is
the DRIVER's own way to learn whether a saturated result was clamped, as R10 describes it. -/

namespace Sys2Proof.Machine

/-- The driver compares the saturated and the extended result of the same operands (10_state.md R10). -/
def clampSeen (n : Nat) (a b : Port) : Bool := lane .saturated n a b != lane .extended n a b

end Sys2Proof.Machine
end

