-- ==== Sys2Proof/Safety.lean ====
section
/-! DEFINITION. The terms in which claims speak of the machine: the block as one total function of its inputs
(10_state.md R5), settled outputs, the invariant of a step, and a reading of a program that does not use `step`. -/

namespace Sys2Proof.Machine

/-! ### The block as a function, written from the fields of the control word and library arithmetic -/

/-- The integer result of one component for the fields `T = t` and N (41_scalar_add.md R26 to R29). -/
def componentValue (t : BitVec 2) (n : Nat) (a b : Port) : Int :=
  let s := (a.setWidth n).toInt + (b.setWidth n).toInt
  if t = 0b00#2 then s.bmod (2 ^ n)
  else if t = 0b01#2 then max (-2 ^ (n - 1)) (min (2 ^ (n - 1) - 1) s)
  else s

/-- N from the field `W`: 16, 32, 64 for 0, 1, 2 (30_encoding.md R15). -/
def nominalWidth (w : BitVec 2) : Nat := 16 * 2 ^ w.toNat

/-- From (control word, operands) to results, for every legal control word (10_state.md R5, R8, R9). -/
def blockFunction (op : ControlWord) (aRe aIm bRe bIm : Port) : Option Sample :=
  if Legal op then
    some
      { yRe := BitVec.ofInt 128 (componentValue (fieldT op) (nominalWidth (fieldW op)) aRe bRe)
        yIm :=
          if fieldC op = 0b1#1 then
            BitVec.ofInt 128 (componentValue (fieldT op) (nominalWidth (fieldW op)) aIm bIm)
          else 0#128 }
  else none

/-! ### What an operation delivers, in numbers -/

/-- The signed number in the low N bits of a port (10_state.md R7), by the library's reading. -/
def signedLow (n : Nat) (p : Port) : Int := (p.setWidth n).toInt

/-- The sum brought into the N-bit range by adding or taking away 2^N (41_scalar_add.md R27). -/
def wrapped (n : Nat) (s : Int) : Int :=
  if 2 ^ (n - 1) ≤ s then s - 2 ^ n else if s < -2 ^ (n - 1) then s + 2 ^ n else s

/-- The sum replaced by the nearer end of the N-bit range where it lies outside (40_saturation.md R21). -/
def clamped (n : Nat) (s : Int) : Int := max (-2 ^ (n - 1)) (min (2 ^ (n - 1) - 1) s)

/-- Operation `i` completes in every state, puts on `y_re` the number `f` of the sum of the low N bits of `a_re` and
`b_re`, zero on `y_im`, and changes nothing else. -/
def ScalarDelivers (i : Instr) (n : Nat) (f : Int → Int) : Prop :=
  ∀ s : State, ∃ y : ResultPort,
    exec i s = .next { s with yRe := y, yIm := 0#128 } ∧
      y.toInt = f (signedLow n s.aRe + signedLow n s.bRe)

/-- Operation `i` completes in every state, puts on `y_re` and on `y_im` the number `f` of the sum of the low N bits of
the two real and of the two imaginary ports, and changes nothing else. -/
def ComplexDelivers (i : Instr) (n : Nat) (f : Int → Int) : Prop :=
  ∀ s : State, ∃ y z : ResultPort,
    exec i s = .next { s with yRe := y, yIm := z } ∧
      y.toInt = f (signedLow n s.aRe + signedLow n s.bRe) ∧
      z.toInt = f (signedLow n s.aIm + signedLow n s.bIm)

/-- An adder of bit vectors for each tier: the plain N-bit adder; the same with overflow read off the sign bits; the
adder of sign-extended operands. Any circuit with the clamp's function may stand for it (40_saturation.md R25). -/
def adderCircuit (t : Tier) (n : Nat) (a b : Port) : ResultPort :=
  let x := a.setWidth n
  let y := b.setWidth n
  match t with
  | .truncated => (x + y).signExtend 128
  | .saturated =>
    if x.msb = y.msb ∧ (x + y).msb ≠ x.msb then
      (if x.msb = true then BitVec.intMin n else BitVec.intMax n).signExtend 128
    else (x + y).signExtend 128
  | .extended => x.signExtend 128 + y.signExtend 128

/-! ### Invariant of a step -/

/-- The outputs are the function of the current inputs (70_reset_and_hazards.md R56; nothing is said of a reserved
control word, 30_encoding.md R18). -/
def Settled (s : State) : Prop := ∀ y, blockFunction s.op s.aRe s.aIm s.bRe s.bIm = some y → outputs s = y

/-- Both components lie in the widest range of any operation, `[-2^64, 2^64 - 2]` (10_state.md R8). -/
def InRange (y : Sample) : Prop :=
  -2 ^ 64 ≤ y.yRe.toInt ∧ y.yRe.toInt ≤ 2 ^ 64 - 2 ∧ -2 ^ 64 ≤ y.yIm.toInt ∧ y.yIm.toInt ≤ 2 ^ 64 - 2

/-- What every step keeps. -/
structure Inv (s : State) : Prop where
  rising  : resultsWf s.results = true
  held    : ∀ e ∈ s.results, InRange e.2
  range   : InRange (outputs s)
  settled : Settled s

/-! ### Runs -/

/-- Every operation the driver has yet to present is legal (70_reset_and_hazards.md R57: the driver's duty). -/
def LegalProgram (s : State) : Prop := ∀ p ∈ s.program, Legal p.op

/-- The next step meets a legal control word, and so does every later one: all operations to present are legal, and so
is the word on port `op` if there is none. -/
def ReadyToStep (s : State) : Prop := LegalProgram s ∧ (s.program = [] → Legal s.op)

/-- What a scalar source puts on a port, where every name is held (30_encoding.md R20). -/
def scalarValue (rs : List (Nat × Sample)) : ScalarSource → Option Port
  | .dec v => some (BitVec.ofInt 64 v)
  | .hex p => some p
  | .result k => (lookupResult k rs).map (fun y => y.yRe.setWidth 64)

/-- What a source puts on its real and imaginary port, where every name is held. -/
def sourceValue (rs : List (Nat × Sample)) : Source → Option (Port × Port)
  | .one (.result k) => (lookupResult k rs).map (fun y => (y.yRe.setWidth 64, y.yIm.setWidth 64))
  | .one x => (scalarValue rs x).map (fun p => (p, 0))
  | .pair re im => (scalarValue rs re).bind (fun p => (scalarValue rs im).map (fun q => (p, q)))

/-- One line read as an assignment: the result of the block's function on the sources' values, held under the line's
name. -/
def evalLine (rs : List (Nat × Sample)) (l : Line) : Option (List (Nat × Sample)) :=
  (sourceValue rs l.src1).bind fun a =>
    (sourceValue rs l.src2).bind fun b =>
      (blockFunction (encode l.instr) a.1 a.2 b.1 b.2).map fun y => storeResult l.dst y rs

/-- A program read as a sequence of assignments (70_reset_and_hazards.md R61). -/
def evalLines (rs : List (Nat × Sample)) : List Line → Option (List (Nat × Sample))
  | [] => some rs
  | l :: rest => (evalLine rs l).bind fun rs' => evalLines rs' rest

end Sys2Proof.Machine
end

