-- ==== Sys2Proof/Certificates/Slice0/Obligations.lean ====
section
/-! DEFINITION. The statements for the provers. -/

open Sys2Proof Sys2Proof.Machine

/-! ### The control word -/

/-- 30_encoding.md R14 to R17, 00_scope.md R4: bits [1:0] give N, bits [3:2] the tier, bit 4 the kind; 11 in either of
the first two is reserved. -/
def Obligations.FieldsSelectTheOperation : Prop :=
  (∀ op : ControlWord, op.toNat % 4 = 3 ∨ op.toNat / 4 % 4 = 3 → decode op = .error (.reservedControlWord op)) ∧
  ∀ op : ControlWord, op.toNat % 4 ≠ 3 → op.toNat / 4 % 4 ≠ 3 →
    ∃ i, decode op = .ok i ∧
      (op.toNat % 4 = 0 ↔ i.bits = 16) ∧ (op.toNat % 4 = 1 ↔ i.bits = 32) ∧ (op.toNat % 4 = 2 ↔ i.bits = 64) ∧
      (op.toNat / 4 % 4 = 0 ↔ i.tier = .truncated) ∧ (op.toNat / 4 % 4 = 1 ↔ i.tier = .saturated) ∧
      (op.toNat / 4 % 4 = 2 ↔ i.tier = .extended) ∧
      (op.toNat / 16 = 0 ↔ i.kind = .scalar) ∧ (op.toNat / 16 = 1 ↔ i.kind = .complex)

/-- The opcode map, a word of each row (30_encoding.md section 2). -/
def Obligations.OpcodeMapRowsDecode : Prop :=
  decode 0x00#5 = .ok .addT16 ∧ decode 0x01#5 = .ok .addT32 ∧ decode 0x02#5 = .ok .addT64 ∧
  decode 0x04#5 = .ok .addS16 ∧ decode 0x05#5 = .ok .addS32 ∧ decode 0x06#5 = .ok .addS64 ∧
  decode 0x08#5 = .ok .addL16 ∧ decode 0x09#5 = .ok .addL32 ∧ decode 0x0A#5 = .ok .addL64 ∧
  decode 0x10#5 = .ok .caddT16 ∧ decode 0x11#5 = .ok .caddT32 ∧ decode 0x12#5 = .ok .caddT64 ∧
  decode 0x14#5 = .ok .caddS16 ∧ decode 0x15#5 = .ok .caddS32 ∧ decode 0x16#5 = .ok .caddS64 ∧
  decode 0x18#5 = .ok .caddL16 ∧ decode 0x19#5 = .ok .caddL32 ∧ decode 0x1A#5 = .ok .caddL64

/-- Decoding and encoding agree in both directions, and the words that no operation has are the rejected ones. -/
def Obligations.DecodeAndEncodeAgree : Prop :=
  (∀ i, decode (encode i) = .ok i) ∧ (∀ op i, decode op = .ok i → encode i = op) ∧
  ∀ op, (∀ i, encode i ≠ op) ↔ decode op = .error (.reservedControlWord op)

/-- A step is refused, naming the control word it evaluates, exactly when that word is one of the 14 reserved ones, and
completes on every other word (30_encoding.md R18, 93_implementation_defined.md S1). That a step with nothing to present evaluates the word
standing on `op`, and is refused for it, is the model's choice (log entries 5 and 8, DEDUCED). -/
def Obligations.ReservedWordsAreRefused : Prop :=
  (∀ s : State, s.program = [] →
    (step s = .refused (.reservedControlWord s.op) ↔ s.op.toNat % 4 = 3 ∨ s.op.toNat / 4 % 4 = 3) ∧
    ((∃ t, step s = .next t) ↔ ¬ (s.op.toNat % 4 = 3 ∨ s.op.toNat / 4 % 4 = 3))) ∧
  (∀ (s : State) (p : Presentation) (rest : List Presentation), s.program = p :: rest →
    (step s = .refused (.reservedControlWord p.op) ↔ p.op.toNat % 4 = 3 ∨ p.op.toNat / 4 % 4 = 3) ∧
    ((∃ t, step s = .next t) ↔ ¬ (p.op.toNat % 4 = 3 ∨ p.op.toNat / 4 % 4 = 3)))

/-- The mnemonic names its operation (30_encoding.md R20). -/
def Obligations.MnemonicsNameOperations : Prop :=
  ∀ i, instrOfMnemonic i.mnemonic = some i

/-! ### Step, reset, invariant -/

/-- What a step adds around `exec`: nothing when no operation is pending; else it presents the operation before and
keeps the sample after. The first clause is the model's choice (log entry 5, DEDUCED); so is the optional name under
which the sample is kept (log entry 18, DESIGN CHOICE). -/
def Obligations.StepRunsTheDecodedOperation : Prop :=
  (∀ (s : State) (i : Instr), s.program = [] → decode s.op = .ok i → step s = exec i s) ∧
  (∀ (s : State) (p : Presentation) (rest : List Presentation) (i : Instr),
    s.program = p :: rest → decode p.op = .ok i →
      step s = collectNext p.dst (exec i (present p { s with program := rest })))

/-- A word given to the machine from outside is the next operation, on the operands as they stand (log entry 12, the
model's choice). -/
def Obligations.FetchWordRunsNext : Prop :=
  ∀ (s : State) (i : Instr) (nbits : Nat), 5 ≤ nbits → ∃ t u,
    step (s.withFetchWord nbits (encode i).toNat) = .next t ∧ exec i s = .next u ∧
      outputs t = outputs u ∧ t.program = s.program ∧ t.results = s.results

/-- The machine at power-up meets the invariant: its outputs are the function of its inputs. The input values are the
model's choice (log entries 1 and 3). -/
def Obligations.ResetMeetsTheStepInvariant : Prop := Inv State.reset

/-- Every step keeps: outputs settled to the function of the inputs, all values in range, names rising. That a step
with nothing to present evaluates the ports as they stand, and that a sample replaces an older one of its name, are
the model's choices (log entries 5 and 17, DEDUCED). -/
def Obligations.StepKeepsTheInvariant : Prop :=
  ∀ s t : State, Inv s → step s = .next t → Inv t

/-- With nothing to present and settled outputs, a step of a legal operation changes nothing: the driver may sample any
number of times (70_reset_and_hazards.md R60). That such a step evaluates the ports as they stand is the model's choice
(log entry 5, DEDUCED). -/
def Obligations.SettledPortsStayAsTheyAre : Prop :=
  ∀ s : State, s.program = [] → Legal s.op → Settled s → step s = .next s

/-- A sample is no observation exactly before `T_SETTLE` or while `op` holds a reserved control word; else it is the
settled outputs, however long the driver waits (70_reset_and_hazards.md R59, R60, 30_encoding.md R18). That `T_SETTLE`
is a natural number, and that a sample under a reserved word is no observation, are the model's choices (log entries 7
and 20). -/
def Obligations.EarlySamplesAreNoObservation : Prop :=
  ∀ (s : State) (held : Nat),
    (sampleAfter held s = none ↔ held < Config.tSettle ∨ s.op.toNat % 4 = 3 ∨ s.op.toNat / 4 % 4 = 3) ∧
    (sampleAfter held s = none ∨ sampleAfter held s = some (outputs s)) ∧
    ∀ (more : Nat) (y : Sample), sampleAfter held s = some y → sampleAfter (held + more) s = some y

/-! ### Reading operands -/

/-- 10_state.md R7 for every width and port value. -/
def Obligations.OperandsAreSignedLowBits : Prop :=
  ∀ (w : Width) (p : Port),
    opnd w.bits p = signedLow w.bits p ∧ minOf w.bits ≤ opnd w.bits p ∧ opnd w.bits p ≤ maxOf w.bits ∧
    (∀ q : Port, p.toNat % 2 ^ w.bits = q.toNat % 2 ^ w.bits → opnd w.bits p = opnd w.bits q) ∧
    opnd 64 p = p.toInt

/-- No input an operation ignores changes an output: bits [63:N] of any port (10_state.md R7), and the imaginary ports
of a scalar operation (R9). -/
def Obligations.IgnoredInputsNeverMatter : Prop :=
  ∀ (i : Instr) (s s' : State),
    s.aRe.toNat % 2 ^ i.bits = s'.aRe.toNat % 2 ^ i.bits →
    s.bRe.toNat % 2 ^ i.bits = s'.bRe.toNat % 2 ^ i.bits →
    (i.kind = .complex → s.aIm.toNat % 2 ^ i.bits = s'.aIm.toNat % 2 ^ i.bits ∧
      s.bIm.toNat % 2 ^ i.bits = s'.bIm.toNat % 2 ^ i.bits) →
    ∃ y z, exec i s = .next { s with yRe := y, yIm := z } ∧ exec i s' = .next { s' with yRe := y, yIm := z }

/-- A scalar operation does not read `a_im` or `b_im` and drives `y_im` to zero (10_state.md R9). -/
def Obligations.ScalarOperationsIgnoreImaginaryPorts : Prop :=
  ∀ (i : Instr) (s : State), i.kind = .scalar →
    ∃ y, exec i s = .next { s with yRe := y, yIm := 0#128 } ∧
      ∀ p q : Port, exec i { s with aIm := p, bIm := q } =
        .next { s with aIm := p, bIm := q, yRe := y, yIm := 0#128 }

/-! ### The clamp -/

/-- 40_saturation.md R21 at the three widths, with its numbers. -/
def Obligations.SignedClampOfThreeWidths : Prop :=
  ∀ v : Int,
    ((v > 32767 → sat 16 v = 32767) ∧ (v < -32768 → sat 16 v = -32768) ∧
      (-32768 ≤ v → v ≤ 32767 → sat 16 v = v)) ∧
    ((v > 2147483647 → sat 32 v = 2147483647) ∧ (v < -2147483648 → sat 32 v = -2147483648) ∧
      (-2147483648 ≤ v → v ≤ 2147483647 → sat 32 v = v)) ∧
    ((v > 9223372036854775807 → sat 64 v = 9223372036854775807) ∧
      (v < -9223372036854775808 → sat 64 v = -9223372036854775808) ∧
      (-9223372036854775808 ≤ v → v ≤ 9223372036854775807 → sat 64 v = v))

/-- 40_saturation.md R22: the unsigned clamp. -/
def Obligations.UnsignedClampRange : Prop :=
  ∀ (n : Nat) (v : Int),
    (v > 2 ^ n - 1 → usat n v = 2 ^ n - 1) ∧ (v < 0 → usat n v = 0) ∧ (0 ≤ v → v ≤ 2 ^ n - 1 → usat n v = v) ∧
    0 ≤ usat n v ∧ usat n v ≤ 2 ^ n - 1

/-- The properties that follow from R21 (40_saturation.md R25): the clamp keeps what is in range, is idempotent and
monotone, and stays in range. -/
def Obligations.ClampIsIdempotentAndMonotone : Prop :=
  ∀ (n : Nat) (v w : Int),
    (minOf n ≤ v → v ≤ maxOf n → sat n v = v) ∧ sat n (sat n v) = sat n v ∧ (v ≤ w → sat n v ≤ sat n w) ∧
    minOf n ≤ sat n v ∧ sat n v ≤ maxOf n

/-- 40_saturation.md R24: the saturated tier clamps the exact sum, and on overflow that is never what clamping the
wrapped sum would give ("wrapped" as in log entry 9, PRESUMED by the spec itself). -/
def Obligations.ClampTakesTheExactSum : Prop :=
  ∀ (w : Width) (a b : Port),
    (lane .saturated w.bits a b).toInt = clamped w.bits (signedLow w.bits a + signedLow w.bits b) ∧
    (signedLow w.bits a + signedLow w.bits b > maxOf w.bits ∨ signedLow w.bits a + signedLow w.bits b < minOf w.bits →
      (lane .saturated w.bits a b).toInt ≠ sat w.bits (wrap w.bits (signedLow w.bits a + signedLow w.bits b)))

/-! ### Results -/

/-- The scalar truncated operations (41_scalar_add.md section 2). That an overflow wraps modulo 2^N is PRESUMED by the
spec itself (93_implementation_defined.md G1, 90_conflicts.md C1), log entry 9. -/
def Obligations.ScalarTruncatedAddsWrap : Prop :=
  (decode 0x00#5 = .ok .addT16 ∧ ScalarDelivers .addT16 16 (wrapped 16)) ∧
  (decode 0x01#5 = .ok .addT32 ∧ ScalarDelivers .addT32 32 (wrapped 32)) ∧
  (decode 0x02#5 = .ok .addT64 ∧ ScalarDelivers .addT64 64 (wrapped 64))

/-- 41_scalar_add.md R28, R33, R34, R35. -/
def Obligations.ScalarSaturatedAddsClamp : Prop :=
  (decode 0x04#5 = .ok .addS16 ∧ ScalarDelivers .addS16 16 (clamped 16)) ∧
  (decode 0x05#5 = .ok .addS32 ∧ ScalarDelivers .addS32 32 (clamped 32)) ∧
  (decode 0x06#5 = .ok .addS64 ∧ ScalarDelivers .addS64 64 (clamped 64))

/-- 41_scalar_add.md R36, R37, R38. -/
def Obligations.ScalarExtendedAddsAreExact : Prop :=
  (decode 0x08#5 = .ok .addL16 ∧ ScalarDelivers .addL16 16 (fun r => r)) ∧
  (decode 0x09#5 = .ok .addL32 ∧ ScalarDelivers .addL32 32 (fun r => r)) ∧
  (decode 0x0A#5 = .ok .addL64 ∧ ScalarDelivers .addL64 64 (fun r => r))

/-- The complex truncated operations (42_complex_add.md section 2). That an overflow of a component wraps modulo 2^N is
PRESUMED by the spec itself (93_implementation_defined.md G1, 90_conflicts.md C1), log entry 9. -/
def Obligations.ComplexTruncatedAddsWrap : Prop :=
  (decode 0x10#5 = .ok .caddT16 ∧ ComplexDelivers .caddT16 16 (wrapped 16)) ∧
  (decode 0x11#5 = .ok .caddT32 ∧ ComplexDelivers .caddT32 32 (wrapped 32)) ∧
  (decode 0x12#5 = .ok .caddT64 ∧ ComplexDelivers .caddT64 64 (wrapped 64))

/-- 42_complex_add.md R44, R45, R46. -/
def Obligations.ComplexSaturatedAddsClamp : Prop :=
  (decode 0x14#5 = .ok .caddS16 ∧ ComplexDelivers .caddS16 16 (clamped 16)) ∧
  (decode 0x15#5 = .ok .caddS32 ∧ ComplexDelivers .caddS32 32 (clamped 32)) ∧
  (decode 0x16#5 = .ok .caddS64 ∧ ComplexDelivers .caddS64 64 (clamped 64))

/-- 42_complex_add.md R47, R48, R49. -/
def Obligations.ComplexExtendedAddsAreExact : Prop :=
  (decode 0x18#5 = .ok .caddL16 ∧ ComplexDelivers .caddL16 16 (fun r => r)) ∧
  (decode 0x19#5 = .ok .caddL32 ∧ ComplexDelivers .caddL32 32 (fun r => r)) ∧
  (decode 0x1A#5 = .ok .caddL64 ∧ ComplexDelivers .caddL64 64 (fun r => r))

/-- 41_scalar_add.md R26: the exact sum, its range, and commutativity of every operation. -/
def Obligations.AdditionIsExactAndCommutative : Prop :=
  (∀ (w : Width) (a b : Port),
    exactSum w.bits a b = signedLow w.bits a + signedLow w.bits b ∧
    -2 ^ w.bits ≤ exactSum w.bits a b ∧ exactSum w.bits a b ≤ 2 ^ w.bits - 2) ∧
  ∀ (i : Instr) (s : State), ∃ y z, exec i s = .next { s with yRe := y, yIm := z } ∧
    exec i { s with aRe := s.bRe, aIm := s.bIm, bRe := s.aRe, bIm := s.aIm } =
      .next { s with aRe := s.bRe, aIm := s.bIm, bRe := s.aRe, bIm := s.aIm, yRe := y, yIm := z }

/-- 41_scalar_add.md R29: the exact sum fits 2N bits, and the port carries the sign extension of the 2N-bit result. -/
def Obligations.ExtendedTierCannotOverflow : Prop :=
  ∀ (w : Width) (a b : Port),
    (lane .extended w.bits a b).toInt = signedLow w.bits a + signedLow w.bits b ∧
    -2 ^ w.bits ≤ (lane .extended w.bits a b).toInt ∧ (lane .extended w.bits a b).toInt ≤ 2 ^ w.bits - 2 ∧
    -2 ^ (2 * w.bits - 1) ≤ (lane .extended w.bits a b).toInt ∧
    (lane .extended w.bits a b).toInt < 2 ^ (2 * w.bits - 1) ∧
    lane .extended w.bits a b = ((lane .extended w.bits a b).setWidth (2 * w.bits)).signExtend 128

/-- 10_state.md R8: each result port carries the sign extension of a result of the operation's width; the truncated and
saturated tiers stay in the N-bit range, the extended tier in `[-2^N, 2^N - 2]`. -/
def Obligations.ResultPortsAreSignExtended : Prop :=
  ∀ (i : Instr) (s : State), ∃ y z, exec i s = .next { s with yRe := y, yIm := z } ∧
    y = (y.setWidth i.resultBits).signExtend 128 ∧ z = (z.setWidth i.resultBits).signExtend 128 ∧
    (i.tier ≠ .extended → minOf i.bits ≤ y.toInt ∧ y.toInt ≤ maxOf i.bits ∧
      minOf i.bits ≤ z.toInt ∧ z.toInt ≤ maxOf i.bits) ∧
    (i.tier = .extended → -2 ^ i.bits ≤ y.toInt ∧ y.toInt ≤ 2 ^ i.bits - 2 ∧
      -2 ^ i.bits ≤ z.toInt ∧ z.toInt ≤ 2 ^ i.bits - 2)

/-- 60_exceptions.md R50, R51: every operation completes in every state and changes only the two result ports. -/
def Obligations.EveryOperationCompletes : Prop :=
  (∀ (i : Instr) (s : State), ∃ y z, exec i s = .next { s with yRe := y, yIm := z }) ∧
  ∀ (s : State) (f : Fault), step s ≠ .fault f

/-- 20_memory.md R13, 10_state.md R5: the outputs of an operation depend on its control word and operands alone, never
on what stood on the outputs before, on the driver's program, or on what it holds. -/
def Obligations.OperationsDoNotInteract : Prop :=
  ∀ (s s' : State), Legal s.op → s.op = s'.op → s.aRe = s'.aRe → s.aIm = s'.aIm → s.bRe = s'.bRe → s.bIm = s'.bIm →
    ∃ t t', evaluate s = .next t ∧ evaluate s' = .next t' ∧ outputs t = outputs t'

/-- A complex operation is two lanes of the scalar operation of its tier and width (42_complex_add.md). -/
def Obligations.ComplexOperationsAreTwoScalarLanes : Prop :=
  ∀ (t : Tier) (w : Width) (s : State), ∃ y z,
    exec (.ofFields .complex t w) s = .next { s with yRe := y, yIm := z } ∧
    exec (.ofFields .scalar t w) s = .next { s with yRe := y, yIm := 0#128 } ∧
    exec (.ofFields .scalar t w) { s with aRe := s.aIm, bRe := s.bIm } =
      .next { s with aRe := s.aIm, bRe := s.bIm, yRe := z, yIm := 0#128 }

/-- 42_complex_add.md R39: the real result never depends on the imaginary ports, nor the imaginary on the real. -/
def Obligations.ComplexLanesHaveNoCrossTerms : Prop :=
  ∀ (i : Instr) (s : State) (p q : Port), i.kind = .complex →
    ∃ y z y' z', exec i s = .next { s with yRe := y, yIm := z } ∧
      exec i { s with aIm := p, bIm := q } = .next { s with aIm := p, bIm := q, yRe := y, yIm := z' } ∧
      exec i { s with aRe := p, bRe := q } = .next { s with aRe := p, bRe := q, yRe := y', yIm := z }

/-- While the exact sum is in the N-bit range, the three tiers deliver the same pattern. -/
def Obligations.TiersAgreeWithoutOverflow : Prop :=
  ∀ (t : Tier) (w : Width) (a b : Port),
    minOf w.bits ≤ signedLow w.bits a + signedLow w.bits b → signedLow w.bits a + signedLow w.bits b ≤ maxOf w.bits →
    lane t w.bits a b = lane .extended w.bits a b

/-- 10_state.md R10: comparing the saturated and the extended result tells the driver exactly whether the sum was out
of range. -/
def Obligations.DriverCanTellAClamp : Prop :=
  ∀ (w : Width) (a b : Port),
    clampSeen w.bits a b = true ↔
      (signedLow w.bits a + signedLow w.bits b < minOf w.bits ∨ signedLow w.bits a + signedLow w.bits b > maxOf w.bits)

/-- The source's boundary property at each width (95_test_vectors.md section 1.1). -/
def Obligations.SaturationBoundaryVectors : Prop :=
  lane .saturated 16 0x7FFF#64 1#64 = 0x7FFF#128 ∧
  lane .saturated 16 0xFFFFFFFFFFFF8000#64 0xFFFFFFFFFFFFFFFF#64 = 0xFFFFFFFFFFFFFFFFFFFFFFFFFFFF8000#128 ∧
  lane .saturated 32 0x7FFFFFFF#64 1#64 = 0x7FFFFFFF#128 ∧
  lane .saturated 32 0xFFFFFFFF80000000#64 0xFFFFFFFFFFFFFFFF#64 = 0xFFFFFFFFFFFFFFFFFFFFFFFF80000000#128 ∧
  lane .saturated 64 0x7FFFFFFFFFFFFFFF#64 1#64 = 0x7FFFFFFFFFFFFFFF#128 ∧
  lane .saturated 64 0x8000000000000000#64 0xFFFFFFFFFFFFFFFF#64 = 0xFFFFFFFFFFFFFFFF8000000000000000#128

/-! ### Fixed-point reading -/

/-- 00_scope.md R2: a value `v` at radix `r` stands for `v / 2^r`; another radix gives another real, but for zero. -/
def Obligations.RadixGivesTheReal : Prop :=
  ∀ (r r' : Nat) (v : Int), realOf r v * 2 ^ r = v ∧ (v ≠ 0 → r ≠ r' → realOf r v ≠ realOf r' v)

/-- 00_scope.md R3: at every radix the result stands for the sum of the operands' reals, in the extended tier always
and in the other tiers while the sum is in range. -/
def Obligations.AdditionKeepsTheRadix : Prop :=
  ∀ (r : Nat) (t : Tier) (w : Width) (a b : Port),
    (t = .extended ∨ (minOf w.bits ≤ signedLow w.bits a + signedLow w.bits b ∧
      signedLow w.bits a + signedLow w.bits b ≤ maxOf w.bits)) →
    realOf r (lane t w.bits a b).toInt = realOf r (signedLow w.bits a) + realOf r (signedLow w.bits b)

/-- `fix` (00_scope.md section 5) gives back a value from its real, is odd, and is off by at most one half. -/
def Obligations.FixRoundsToTheNearest : Prop :=
  ∀ (r : Nat) (x : ℚ) (v : Int),
    fix (realOf r v) r = v ∧ fix (-x) r = -fix x r ∧
    (fix x r : ℚ) - x * 2 ^ r ≤ 1 / 2 ∧ x * 2 ^ r - (fix x r : ℚ) ≤ 1 / 2

/-! ### Bits -/

/-- 20_memory.md R12: bit `i` of the pattern of `v` is the coefficient of `2^i`. -/
def Obligations.PortBitsHaveTheirWeight : Prop :=
  ∀ (m i : Nat) (v : Int), i < m → (bits m v).getLsbD i = decide (v / 2 ^ i % 2 = 1)

/-- The notation of 00_scope.md section 5 is the library's: signed and unsigned value, sign and zero extension. -/
def Obligations.ExtensionsAreTheLibrarys : Prop :=
  ∀ (n m : Nat) (p : BitVec n),
    sval n p = p.toInt ∧ uval n p = p.toNat ∧ sext n m p = p.signExtend m ∧ zext n m p = p.setWidth m ∧
    bits n (sval n p) = p

/-! ### Designs and refinements -/

/-- Every operation is computed by plain adders of bit vectors, with overflow read off the sign bits (40_saturation.md
R25). That the truncated tier is the N-bit adder rests on the wrap modulo 2^N (log entry 9, PRESUMED by the spec
itself). -/
def Obligations.OperationsEqualTheAdderCircuits : Prop :=
  ∀ (i : Instr) (s : State),
    exec i s = .next { s with
      yRe := adderCircuit i.tier i.bits s.aRe s.bRe
      yIm := if i.kind = .complex then adderCircuit i.tier i.bits s.aIm s.bIm else 0#128 }

/-- 10_state.md R5: with nothing to present, a step is the block's function of its control word and operands, read off
the fields of the control word, and is refused where R18 gives no function. The step with nothing to present and its
refusal are the model's choices (log entries 5 and 8, DEDUCED); the wrap of the truncated tier is PRESUMED by the spec
itself (log entry 9). -/
def Obligations.StepIsTheBlockFunction : Prop :=
  ∀ s : State, s.program = [] →
    step s = match blockFunction s.op s.aRe s.aIm s.bRe s.bIm with
      | some y => .next { s with yRe := y.yRe, yIm := y.yIm }
      | none => .refused (.reservedControlWord s.op)

/-! ### The driver's program -/

/-- 30_encoding.md R20: a decimal or hex literal is read by an operation of width N as its value wrapped to N bits. -/
def Obligations.LiteralsAreReadWrapped : Prop :=
  ∀ (w : Width) (n : Nat) (rs : List (Nat × Sample)) (v : Int) (p : Port),
    placeRe n rs (.one (.dec v)) = BitVec.ofInt 64 v ∧ placeRe n rs (.one (.hex p)) = p ∧
    opnd w.bits (placeRe n rs (.one (.dec v))) = v.bmod (2 ^ w.bits) ∧
    opnd w.bits (placeRe n rs (.one (.hex p))) = (p.toNat : Int).bmod (2 ^ w.bits)

/-- A held result whose number fits N bits is read back exactly by an operation of width N (30_encoding.md R20,
70_reset_and_hazards.md R58, R61). -/
def Obligations.ForwardedResultsAreReadExactly : Prop :=
  ∀ (w : Width) (n k : Nat) (rs : List (Nat × Sample)) (y : Sample), lookupResult k rs = some y →
    (minOf w.bits ≤ y.yRe.toInt → y.yRe.toInt ≤ maxOf w.bits →
      opnd w.bits (placeRe n rs (.one (.result k))) = y.yRe.toInt) ∧
    (minOf w.bits ≤ y.yIm.toInt → y.yIm.toInt ≤ maxOf w.bits →
      opnd w.bits (placeIm n rs (.one (.result k))) = y.yIm.toInt)

/-- 30_encoding.md R20: adding zero in the truncated or the saturated tier returns the operand. -/
def Obligations.AddingZeroMoves : Prop :=
  ∀ (t : Tier) (w : Width) (s : State), t = .truncated ∨ t = .saturated → s.bRe = 0 →
    ∃ y, exec (.ofFields .scalar t w) s = .next { s with yRe := y, yIm := 0#128 } ∧ y.toInt = signedLow w.bits s.aRe

/-- A presented operation: its operands stand on the ports, its result is held under its name, every other held result
stays, and the rest of the program is left. The model's choices in it: the count `presented` and the free values it
feeds (log entry 4), what stands on an imaginary port beside a scalar literal (entry 10, DEDUCED, for a scalar
operation; entry 21, DESIGN CHOICE, for a complex one) and for a name inside a pair (entry 11), that a sample replaces an older one of its name (entry 17, DEDUCED), that a name may be missing
(entry 18). -/
def Obligations.PresentedOperationKeepsItsSample : Prop :=
  ∀ (s : State) (p : Presentation) (rest : List Presentation), s.program = p :: rest → Legal p.op →
    ∃ t, step s = .next t ∧ t.program = rest ∧ t.op = p.op ∧ t.presented = s.presented + 1 ∧
      t.aRe = placeRe s.presented s.results p.a ∧ t.aIm = placeIm s.presented s.results p.a ∧
      t.bRe = placeRe s.presented s.results p.b ∧ t.bIm = placeIm s.presented s.results p.b ∧
      blockFunction t.op t.aRe t.aIm t.bRe t.bIm = some (outputs t) ∧
      (∀ k, p.dst = some k → lookupResult k t.results = some (outputs t)) ∧
      (∀ j, p.dst ≠ some j → lookupResult j t.results = lookupResult j s.results)

/-- A program of legal operations runs to its end from every state, one step an operation; one with a reserved word
runs into the refusal of its first such word. The count `presented` is the model's own (log entry 4). -/
def Obligations.ProgramsRunToTheirEnd : Prop :=
  (∀ s : State, LegalProgram s → ∃ t,
    Host.Core.run core s.program.length s = .next t ∧ t.program = [] ∧
      t.presented = s.presented + s.program.length) ∧
  ∀ (s : State) (before after : List Presentation) (p : Presentation), s.program = before ++ p :: after →
    (∀ q ∈ before, Legal q.op) → ¬ Legal p.op →
      Host.Core.run core (before.length + 1) s = .refused (.reservedControlWord p.op)

/-- A state ready to step, with only legal operations ahead or on the ports, completes its step and is ready again: no
run leaves the legal words by itself. That a step with nothing to present evaluates the ports as they stand is the
model's choice (log entry 5, DEDUCED). -/
def Obligations.StepKeepsReadiness : Prop :=
  ∀ s : State, ReadyToStep s → ∃ t, step s = .next t ∧ ReadyToStep t

/-- The machine at power-up is ready to step. That port `op` holds 0 and nothing is pending is the model's choice (log
entries 1 and 3). -/
def Obligations.ResetIsReadyToStep : Prop := ReadyToStep State.reset

/-- Running a checked program step by step leaves the results that reading its lines as assignments of the block's
function gives: the check is sound, and no name without a held result is read. The reading has the model's choices built in:
what stands on an imaginary port beside a scalar literal (log entry 10, DEDUCED), that a name inside a pair places
`y_re` (entry 11, DESIGN CHOICE, unsafe), that a sample replaces an older one of its name (entry 17, DEDUCED). -/
def Obligations.CheckedProgramsMeetTheirReading : Prop :=
  ∀ (s : State) (ls : List Line), programWf (s.results.map Prod.fst) ls = true → ∃ t,
    Host.Core.run core ls.length { s with program := ls.map Line.assemble } = .next t ∧ t.program = [] ∧
      evalLines s.results ls = some t.results
end

