-- ==== Sys2Proof/Laws/Arithmetic.lean ====
section
/-! SUPPORT. The spec's notation in terms of the library's: what `sval`, `bits`, `wrap`, `sat`, `opnd` and a lane
compute, and in which ranges. -/

namespace Sys2Proof.Machine

theorem sval_eq_toInt (n : Nat) (p : BitVec n) : sval n p = p.toInt := by
  unfold sval
  rw [BitVec.toInt_eq_msb_cond]
  split <;> simp

theorem bits_eq_ofInt (m : Nat) (v : Int) : bits m v = BitVec.ofInt m v := by
  apply BitVec.eq_of_toNat_eq
  have h : 0 ≤ v % (2 : Int) ^ m := Int.emod_nonneg _ (by positivity)
  have h' : v % (2 : Int) ^ m < (2 : Int) ^ m := Int.emod_lt_of_pos _ (by positivity)
  have h'' : (v % (2 : Int) ^ m).toNat < 2 ^ m := by
    zify; rw [Int.toNat_of_nonneg h]; exact h'
  simp only [bits, BitVec.toNat_ofNat, BitVec.toNat_ofInt, Nat.mod_eq_of_lt h'']
  norm_num

theorem wrap_eq_bmod (n : Nat) (v : Int) : wrap n v = v.bmod (2 ^ n) := by
  rw [wrap, sval_eq_toInt, bits_eq_ofInt, BitVec.toInt_ofInt]

theorem lowBits_eq_setWidth (n : Nat) (p : Port) : lowBits n p = p.setWidth n := by
  apply BitVec.eq_of_toNat_eq
  simp [lowBits]

theorem opnd_eq_toInt (n : Nat) (p : Port) : opnd n p = (p.setWidth n).toInt := by
  rw [opnd, sval_eq_toInt, lowBits_eq_setWidth]

theorem minOf_le_maxOf (n : Nat) : minOf n ≤ maxOf n := by
  have : (0 : Int) < 2 ^ (n - 1) := by positivity
  unfold minOf maxOf; omega

theorem sat_eq_max_min (n : Nat) (v : Int) : sat n v = max (minOf n) (min (maxOf n) v) := by
  have := minOf_le_maxOf n
  unfold sat; split_ifs <;> omega

/-- The clamp is the source's `saturate` with `MAX_N` as limit (40_saturation.md R21, R23). -/
theorem sat_eq_saturate (n : Nat) (v : Int) : sat n v = saturate v (maxOf n) := by
  have h : -maxOf n - 1 = minOf n := by unfold maxOf minOf; ring
  unfold sat saturate; rw [h]

theorem sat_bounds (n : Nat) (v : Int) : minOf n ≤ sat n v ∧ sat n v ≤ maxOf n := by
  have := minOf_le_maxOf n
  rw [sat_eq_max_min]; omega

theorem wrap_bounds (n : Nat) (hn : 0 < n) (v : Int) : minOf n ≤ wrap n v ∧ wrap n v ≤ maxOf n := by
  have h2 : ((2 ^ n : Nat) : Int) = 2 * 2 ^ (n - 1) := by
    obtain ⟨m, rfl⟩ : ∃ m, n = m + 1 := ⟨n - 1, by omega⟩
    push_cast; simp [pow_succ]; ring
  have hp : 0 < (2 ^ n : Nat) := by positivity
  have h := @Int.le_bmod v (2 ^ n) hp
  have h' := @Int.bmod_lt v (2 ^ n) hp
  rw [wrap_eq_bmod]; unfold minOf maxOf; omega

theorem opnd_bounds (n : Nat) (p : Port) : minOf n ≤ opnd n p ∧ opnd n p ≤ maxOf n := by
  have h := BitVec.le_toInt (p.setWidth n)
  have h' := BitVec.toInt_lt (x := p.setWidth n)
  rw [opnd_eq_toInt]; unfold minOf maxOf; omega

theorem exactSum_bounds (n : Nat) (a b : Port) :
    2 * minOf n ≤ exactSum n a b ∧ exactSum n a b ≤ 2 * maxOf n := by
  have h := opnd_bounds n a
  have h' := opnd_bounds n b
  unfold exactSum; omega

/-- What wrapping does to the sum of two operands (41_scalar_add.md R27): nothing in range, else 2^N up or down. -/
theorem wrap_exactSum (n : Nat) (hn : 0 < n) (a b : Port) :
    wrap n (exactSum n a b) =
      if maxOf n < exactSum n a b then exactSum n a b - 2 ^ n
      else if exactSum n a b < minOf n then exactSum n a b + 2 ^ n
      else exactSum n a b := by
  have hb := exactSum_bounds n a b
  rw [wrap_eq_bmod]
  obtain ⟨m, rfl⟩ : ∃ m, n = m + 1 := ⟨n - 1, by omega⟩
  have h2 : ((2 ^ (m + 1) : Nat) : Int) = 2 * 2 ^ m := by push_cast; ring
  have h3 : (2 : Int) ^ (m + 1) = 2 * 2 ^ m := by ring
  unfold minOf maxOf at *
  simp only [Nat.add_sub_cancel] at *
  rw [h3]
  split_ifs
  · refine (Int.bmod_eq_iff (by positivity)).2 ⟨by rw [h2]; omega, by rw [h2]; omega, ?_⟩
    rw [h2]; exact ⟨-1, by ring⟩
  · refine (Int.bmod_eq_iff (by positivity)).2 ⟨by rw [h2]; omega, by rw [h2]; omega, ?_⟩
    rw [h2]; exact ⟨1, by ring⟩
  · apply Int.bmod_eq_of_le <;> rw [h2] <;> omega

/-- The integer a tier delivers fits a result port (10_state.md R8). -/
theorem tierResult_bounds (t : Tier) (n : Nat) (hn : 0 < n) (a b : Port) :
    2 * minOf n ≤ tierResult t n (exactSum n a b) ∧ tierResult t n (exactSum n a b) ≤ 2 * maxOf n := by
  have hs := exactSum_bounds n a b
  have hmin : minOf n ≤ 0 := by unfold minOf; have : (0 : Int) < 2 ^ (n - 1) := by positivity
                                omega
  have hmax : 0 ≤ maxOf n := by unfold maxOf; have : (0 : Int) < 2 ^ (n - 1) := by positivity
                                omega
  cases t with
  | truncated => have := wrap_bounds n hn (exactSum n a b); simp only [tierResult]; omega
  | saturated => have := sat_bounds n (exactSum n a b); simp only [tierResult]; omega
  | extended => exact hs

/-- A port pattern of 128 bits carries every integer that fits. -/
theorem toInt_bits_128 (v : Int) (h : -2 ^ 127 ≤ v) (h' : v < 2 ^ 127) : (bits 128 v).toInt = v := by
  rw [bits_eq_ofInt, BitVec.toInt_ofInt]
  exact Int.bmod_eq_of_le (by norm_num at *; omega) (by norm_num at *; omega)

/-- What stands on a result port is, as a signed number, what the tier delivers, for the widths of the block. -/
theorem lane_toInt (t : Tier) (n : Nat) (hn : n = 16 ∨ n = 32 ∨ n = 64) (a b : Port) :
    (lane t n a b).toInt = tierResult t n (exactSum n a b) := by
  have hb := tierResult_bounds t n (by omega) a b
  apply toInt_bits_128
  · rcases hn with rfl | rfl | rfl <;> norm_num [minOf] at hb ⊢ <;> omega
  · rcases hn with rfl | rfl | rfl <;> norm_num [maxOf] at hb ⊢ <;> omega

theorem lane_comm (t : Tier) (n : Nat) (a b : Port) : lane t n a b = lane t n b a := by
  unfold lane exactSum; rw [Int.add_comm]

/-- A lane reads only the low N bits of its ports (10_state.md R7). -/
theorem lane_congr_lowBits (t : Tier) (n : Nat) {a a' b b' : Port} (ha : lowBits n a = lowBits n a')
    (hb : lowBits n b = lowBits n b') : lane t n a b = lane t n a' b' := by
  unfold lane exactSum opnd; rw [ha, hb]

end Sys2Proof.Machine
end

