-- ==== Sys2Proof/Laws/Decode.lean ====
section
/-! SUPPORT. Small facts about the decoder and the columns of the opcode map. -/

namespace Sys2Proof

theorem instr_bits_cases (i : Instr) : i.bits = 16 ∨ i.bits = 32 ∨ i.bits = 64 := by
  cases i <;> decide

theorem legal_encode (i : Instr) : Legal (encode i) := by cases i <;> decide

/-- A control word that decodes is legal and is its operation's own word. -/
theorem legal_of_decode_ok : ∀ {op : ControlWord} {i : Instr}, decode op = .ok i → Legal op ∧ encode i = op := by
  intro op i
  revert i op
  suffices h : ∀ op, (match decode op with
      | .ok j => decide (Legal op ∧ encode j = op)
      | .error _ => true) = true by
    intro op i hi
    have := h op
    rw [hi] at this
    exact of_decide_eq_true this
  decide

/-- A legal control word decodes. -/
theorem decode_ok_of_legal : ∀ {op : ControlWord}, Legal op → ∃ i, decode op = .ok i := by
  suffices h : ∀ op, Legal op → (decode op).isOk = true by
    intro op hl; have := h op hl
    cases hd : decode op with
    | ok i => exact ⟨i, rfl⟩
    | error r => rw [hd] at this; cases this
  decide

/-- An illegal one is rejected by its name. -/
theorem decode_error_of_not_legal :
    ∀ {op : ControlWord}, ¬ Legal op → decode op = .error (.reservedControlWord op) := by
  decide

end Sys2Proof
end

