-- ==== Sys2Proof/Laws/State.lean ====
section
/-! SUPPORT. One lemma per field per update of the state. -/

namespace Sys2Proof.Machine

section Drive
variable (re im : ResultPort) (s : State)

@[simp] theorem drive_op : (drive re im s).op = s.op := rfl
@[simp] theorem drive_aRe : (drive re im s).aRe = s.aRe := rfl
@[simp] theorem drive_aIm : (drive re im s).aIm = s.aIm := rfl
@[simp] theorem drive_bRe : (drive re im s).bRe = s.bRe := rfl
@[simp] theorem drive_bIm : (drive re im s).bIm = s.bIm := rfl
@[simp] theorem drive_yRe : (drive re im s).yRe = re := rfl
@[simp] theorem drive_yIm : (drive re im s).yIm = im := rfl
@[simp] theorem drive_program : (drive re im s).program = s.program := rfl
@[simp] theorem drive_results : (drive re im s).results = s.results := rfl
@[simp] theorem drive_presented : (drive re im s).presented = s.presented := rfl
@[simp] theorem outputs_drive : outputs (drive re im s) = { yRe := re, yIm := im } := rfl

end Drive

section Present
variable (p : Presentation) (s : State)

@[simp] theorem present_op : (present p s).op = p.op := rfl
@[simp] theorem present_aRe : (present p s).aRe = placeRe s.presented s.results p.a := rfl
@[simp] theorem present_aIm : (present p s).aIm = placeIm s.presented s.results p.a := rfl
@[simp] theorem present_bRe : (present p s).bRe = placeRe s.presented s.results p.b := rfl
@[simp] theorem present_bIm : (present p s).bIm = placeIm s.presented s.results p.b := rfl
@[simp] theorem present_yRe : (present p s).yRe = s.yRe := rfl
@[simp] theorem present_yIm : (present p s).yIm = s.yIm := rfl
@[simp] theorem present_program : (present p s).program = s.program := rfl
@[simp] theorem present_results : (present p s).results = s.results := rfl
@[simp] theorem present_presented : (present p s).presented = s.presented + 1 := rfl

end Present

section Collect
variable (dst : Option Nat) (k : Nat) (s : State)

@[simp] theorem collect_none : collect none s = s := rfl
@[simp] theorem collect_some_results :
    (collect (some k) s).results = storeResult k (outputs s) s.results := rfl
@[simp] theorem collect_op : (collect dst s).op = s.op := by cases dst <;> rfl
@[simp] theorem collect_aRe : (collect dst s).aRe = s.aRe := by cases dst <;> rfl
@[simp] theorem collect_aIm : (collect dst s).aIm = s.aIm := by cases dst <;> rfl
@[simp] theorem collect_bRe : (collect dst s).bRe = s.bRe := by cases dst <;> rfl
@[simp] theorem collect_bIm : (collect dst s).bIm = s.bIm := by cases dst <;> rfl
@[simp] theorem collect_yRe : (collect dst s).yRe = s.yRe := by cases dst <;> rfl
@[simp] theorem collect_yIm : (collect dst s).yIm = s.yIm := by cases dst <;> rfl
@[simp] theorem collect_program : (collect dst s).program = s.program := by cases dst <;> rfl
@[simp] theorem collect_presented : (collect dst s).presented = s.presented := by cases dst <;> rfl
@[simp] theorem outputs_collect : outputs (collect dst s) = outputs s := by cases dst <;> rfl

end Collect

end Sys2Proof.Machine
end

