-- ==== Sys2Proof/Laws/Driver.lean ====
section
/-! SUPPORT. The results the driver holds: storing keeps the names strictly rising, and reading after storing. -/

namespace Sys2Proof.Machine

theorem all_storeResult (q : Nat × Sample → Bool) (k : Nat) (y : Sample) (rs : List (Nat × Sample))
    (h : rs.all q = true) (hk : q (k, y) = true) : (storeResult k y rs).all q = true := by
  induction rs with
  | nil => simp [storeResult, hk]
  | cons e rest ih =>
    simp only [List.all_cons, Bool.and_eq_true] at h
    unfold storeResult; split_ifs <;> simp only [List.all_cons, Bool.and_eq_true]
    · exact ⟨hk, h⟩
    · exact ⟨hk, h.2⟩
    · exact ⟨h.1, ih h.2⟩

/-- Storing keeps the canonical form. -/
theorem storeResult_wf (k : Nat) (y : Sample) (rs : List (Nat × Sample)) (h : resultsWf rs = true) :
    resultsWf (storeResult k y rs) = true := by
  induction rs with
  | nil => rfl
  | cons e rest ih =>
    simp only [resultsWf, Bool.and_eq_true] at h
    obtain ⟨h1, h2⟩ := h
    have h1' := h1
    simp only [List.all_eq_true, decide_eq_true_eq] at h1'
    unfold storeResult; split_ifs with hlt heq
    · simp only [resultsWf, List.all_cons, Bool.and_eq_true, List.all_eq_true, decide_eq_true_eq]
      exact ⟨⟨hlt, fun f hf => lt_trans hlt (h1' f hf)⟩, h1', h2⟩
    · simp only [resultsWf, Bool.and_eq_true, List.all_eq_true, decide_eq_true_eq]
      exact ⟨fun f hf => heq ▸ h1' f hf, h2⟩
    · simp only [resultsWf, Bool.and_eq_true]
      exact ⟨all_storeResult _ k y rest h1 (by simp; omega), ih h2⟩

theorem collect_wf (dst : Option Nat) (s : State) (h : resultsWf s.results = true) :
    resultsWf (collect dst s).results = true := by
  cases dst with
  | none => exact h
  | some k => exact storeResult_wf k _ _ h

/-- Reading the name just stored. -/
theorem lookup_storeResult_same (k : Nat) (y : Sample) (rs : List (Nat × Sample)) :
    lookupResult k (storeResult k y rs) = some y := by
  induction rs with
  | nil => simp [storeResult, lookupResult]
  | cons e rest ih =>
    unfold storeResult; split_ifs with hlt heq
    · simp [lookupResult]
    · simp [lookupResult]
    · rw [lookupResult, if_neg (Ne.symm heq), ih]

/-- Reading another name. -/
theorem lookup_storeResult_other (k j : Nat) (hj : j ≠ k) (y : Sample) (rs : List (Nat × Sample)) :
    lookupResult j (storeResult k y rs) = lookupResult j rs := by
  induction rs with
  | nil => simp [storeResult, lookupResult, Ne.symm hj]
  | cons e rest ih =>
    unfold storeResult; split_ifs with hlt heq
    · simp [lookupResult, Ne.symm hj]
    · simp [lookupResult, ← heq, Ne.symm hj]
    · simp only [lookupResult, ih]

/-- An entry of the stored list is the new one or an old one. -/
theorem mem_storeResult {k : Nat} {y : Sample} {rs : List (Nat × Sample)} {e : Nat × Sample}
    (h : e ∈ storeResult k y rs) : e = (k, y) ∨ e ∈ rs := by
  induction rs with
  | nil => simpa [storeResult] using h
  | cons f rest ih =>
    unfold storeResult at h; split_ifs at h with hlt heq
    · simpa using h
    · rcases List.mem_cons.1 h with h | h
      · exact .inl h
      · exact .inr (List.mem_cons_of_mem _ h)
    · rcases List.mem_cons.1 h with h | h
      · exact .inr (h ▸ List.mem_cons_self)
      · exact (ih h).imp_right (List.mem_cons_of_mem _)

/-- A name found in the list is held. -/
theorem lookup_of_mem_names {k : Nat} {rs : List (Nat × Sample)} (h : k ∈ rs.map Prod.fst) :
    ∃ y, lookupResult k rs = some y := by
  induction rs with
  | nil => cases h
  | cons e rest ih =>
    unfold lookupResult; split_ifs with c
    · exact ⟨_, rfl⟩
    · rw [List.map_cons, List.mem_cons] at h
      exact ih (h.resolve_left (Ne.symm c))

theorem forwardBits_eq_setWidth (y : ResultPort) : forwardBits y = y.setWidth 64 := by
  apply BitVec.eq_of_toNat_eq; simp [forwardBits]

/-- All that sampling can do: the standing outputs, once settled and under a legal control word, or nothing. -/
theorem sampleAfter_cases (held : Nat) (s : State) :
    (Config.tSettle ≤ held ∧ Legal s.op ∧ sampleAfter held s = some (outputs s)) ∨
    ((held < Config.tSettle ∨ ¬ Legal s.op) ∧ sampleAfter held s = none) := by
  unfold sampleAfter
  split_ifs with h
  · exact .inl ⟨h.1, h.2, rfl⟩
  · exact .inr ⟨(not_and_or.1 h).imp_left Nat.lt_of_not_le, rfl⟩

/-- The sample that the driver of a legal operation keeps is the one it observes once the settle time has passed. -/
theorem sampleAfter_tSettle {s : State} (h : Legal s.op) : sampleAfter Config.tSettle s = some (outputs s) :=
  if_pos ⟨le_rfl, h⟩

end Sys2Proof.Machine
end

