-- ==== Sys2Proof/Laws/PerInstr.lean ====
section
/-! SUPPORT. One lemma per operation: its control word decodes to it. -/

namespace Sys2Proof

/-- The control word of `i` decodes to `i`. -/
def Laws.RoundTrip.Statement (i : Instr) : Prop := decode (encode i) = .ok i

theorem Laws.RoundTrip.addT16 : Laws.RoundTrip.Statement .addT16 := rfl
theorem Laws.RoundTrip.addT32 : Laws.RoundTrip.Statement .addT32 := rfl
theorem Laws.RoundTrip.addT64 : Laws.RoundTrip.Statement .addT64 := rfl
theorem Laws.RoundTrip.addS16 : Laws.RoundTrip.Statement .addS16 := rfl
theorem Laws.RoundTrip.addS32 : Laws.RoundTrip.Statement .addS32 := rfl
theorem Laws.RoundTrip.addS64 : Laws.RoundTrip.Statement .addS64 := rfl
theorem Laws.RoundTrip.addL16 : Laws.RoundTrip.Statement .addL16 := rfl
theorem Laws.RoundTrip.addL32 : Laws.RoundTrip.Statement .addL32 := rfl
theorem Laws.RoundTrip.addL64 : Laws.RoundTrip.Statement .addL64 := rfl
theorem Laws.RoundTrip.caddT16 : Laws.RoundTrip.Statement .caddT16 := rfl
theorem Laws.RoundTrip.caddT32 : Laws.RoundTrip.Statement .caddT32 := rfl
theorem Laws.RoundTrip.caddT64 : Laws.RoundTrip.Statement .caddT64 := rfl
theorem Laws.RoundTrip.caddS16 : Laws.RoundTrip.Statement .caddS16 := rfl
theorem Laws.RoundTrip.caddS32 : Laws.RoundTrip.Statement .caddS32 := rfl
theorem Laws.RoundTrip.caddS64 : Laws.RoundTrip.Statement .caddS64 := rfl
theorem Laws.RoundTrip.caddL16 : Laws.RoundTrip.Statement .caddL16 := rfl
theorem Laws.RoundTrip.caddL32 : Laws.RoundTrip.Statement .caddL32 := rfl
theorem Laws.RoundTrip.caddL64 : Laws.RoundTrip.Statement .caddL64 := rfl

end Sys2Proof
end

