-- ==== Sys2Proof/Laws/Step.lean ====
section
/-! SUPPORT. What an operation and a step can do, said once. -/

namespace Sys2Proof.Machine

/-- The state after an operation of a kind, a tier and a nominal width. -/
theorem exec_eq (i : Instr) (s : State) :
    exec i s = .next (match i.kind with
      | .scalar => addScalar i.tier i.bits s
      | .complex => addComplex i.tier i.bits s) := by
  cases i <;> rfl

/-- Every operation drives the two result ports with lanes of its own tier and width, and does nothing else. -/
theorem exec_cases (i : Instr) (s : State) :
    (i.kind = .scalar ∧ exec i s = .next (drive (lane i.tier i.bits s.aRe s.bRe) (bits 128 0) s)) ∨
    (i.kind = .complex ∧
      exec i s = .next (drive (lane i.tier i.bits s.aRe s.bRe) (lane i.tier i.bits s.aIm s.bIm) s)) := by
  rw [exec_eq]
  cases h : i.kind
  · exact .inl ⟨rfl, rfl⟩
  · exact .inr ⟨rfl, rfl⟩

theorem evaluate_of_decode {s : State} {i : Instr} (h : decode s.op = .ok i) : evaluate s = exec i s := by
  rw [evaluate, h]

theorem evaluate_of_not_legal {s : State} (h : ¬ Legal s.op) :
    evaluate s = .refused (.reservedControlWord s.op) := by
  rw [evaluate, decode_error_of_not_legal h]

/-- All that evaluating the ports can do: a legal word drives the result ports, a reserved one is refused. -/
theorem evaluate_cases (s : State) :
    (∃ i re im, decode s.op = .ok i ∧ exec i s = .next (drive re im s) ∧ evaluate s = .next (drive re im s)) ∨
    (¬ Legal s.op ∧ evaluate s = .refused (.reservedControlWord s.op)) := by
  by_cases h : Legal s.op
  · obtain ⟨i, hi⟩ := decode_ok_of_legal h
    rcases exec_cases i s with ⟨-, he⟩ | ⟨-, he⟩
    · exact .inl ⟨i, _, _, hi, he, (evaluate_of_decode hi).trans he⟩
    · exact .inl ⟨i, _, _, hi, he, (evaluate_of_decode hi).trans he⟩
  · exact .inr ⟨h, evaluate_of_not_legal h⟩

theorem step_idle {s : State} (h : s.program = []) : step s = evaluate s := by
  rw [step, h]

theorem step_cons {s : State} {p : Presentation} {rest : List Presentation} (h : s.program = p :: rest) :
    step s = collectNext p.dst (evaluate (present p { s with program := rest })) := by
  rw [step, h]

end Sys2Proof.Machine
end

