-- ==== Sys2Proof/Tests/Slice0.lean ====
section
/-! SUPPORT. Tests: words written out from 30_encoding.md, vectors and programs of 95_test_vectors.md, ill-formed lines,
and one witness for every statement with hypotheses. -/

namespace Sys2Proof.Tests

open Sys2Proof.Machine

/-! ### Decoding: words written out as C, T, W (30_encoding.md sections 1 and 2) -/

theorem test_decode_scalar_words :
    decode 0b00000#5 = .ok .addT16 ∧ decode 0b00001#5 = .ok .addT32 ∧ decode 0b00010#5 = .ok .addT64 ∧
    decode 0b00100#5 = .ok .addS16 ∧ decode 0b00101#5 = .ok .addS32 ∧ decode 0b00110#5 = .ok .addS64 ∧
    decode 0b01000#5 = .ok .addL16 ∧ decode 0b01001#5 = .ok .addL32 ∧ decode 0b01010#5 = .ok .addL64 := by
  decide

theorem test_decode_complex_words :
    decode 0b10000#5 = .ok .caddT16 ∧ decode 0b10001#5 = .ok .caddT32 ∧ decode 0b10010#5 = .ok .caddT64 ∧
    decode 0b10100#5 = .ok .caddS16 ∧ decode 0b10101#5 = .ok .caddS32 ∧ decode 0b10110#5 = .ok .caddS64 ∧
    decode 0b11000#5 = .ok .caddL16 ∧ decode 0b11001#5 = .ok .caddL32 ∧ decode 0b11010#5 = .ok .caddL64 := by
  decide

/-- The 14 reserved code points of 30_encoding.md section 2. -/
theorem test_reserved_words :
    ∀ op ∈ [0x03#5, 0x07#5, 0x0B#5, 0x0C#5, 0x0D#5, 0x0E#5, 0x0F#5, 0x13#5, 0x17#5, 0x1B#5, 0x1C#5, 0x1D#5, 0x1E#5,
      0x1F#5], decode op = .error (.reservedControlWord op) := by
  decide

theorem test_decode_table_word :
    decodeTableWord 8 0x1A = some .caddL64 ∧ decodeTableWord 5 0x04 = some .addS16 ∧ decodeTableWord 8 0x0F = none ∧
    decodeNat 0x20 = .error (.notAControlWord 0x20) := by
  decide

/-- Mnemonics as the table of 30_encoding.md section 2 spells them. -/
theorem test_mnemonics :
    Instr.mnemonic .addT16 = "ADD.T16" ∧ Instr.mnemonic .addS64 = "ADD.S64" ∧ Instr.mnemonic .caddL32 = "CADD.L32" ∧
    instrOfMnemonic "CADD.T64" = some .caddT64 ∧ instrOfMnemonic "SUB.T16" = none := by
  decide +kernel

/-- Lines as 95_test_vectors.md section 3 and 30_encoding.md R20 spell them. -/
theorem test_line_text :
    Line.text { instr := .addS16, dst := 3, src1 := .one (.result 2), src2 := .one (.dec (-32768)) } =
      "ADD.S16 r3, r2, -32768" ∧
    Line.text { instr := .caddS32, dst := 2, src1 := .one (.result 1),
                src2 := .pair (.dec 100000000) (.dec (-100000000)) } =
      "CADD.S32 r2, r1, (100000000, -100000000)" ∧
    hexText 0x7FFF#64 = "0x0000000000007FFF" := by
  decide +kernel

/-! ### Well-formedness: one ill-formed line for each check -/

theorem test_wf_refuses_pair_for_scalar :
    Line.wf [] { instr := .addT16, dst := 1, src1 := .pair (.dec 1) (.dec 2), src2 := .one (.dec 0) } = false ∧
    Line.wf [] { instr := .addT16, dst := 1, src1 := .one (.dec 0), src2 := .pair (.dec 1) (.dec 2) } = false := by
  decide

theorem test_wf_refuses_literal_for_complex :
    Line.wf [] { instr := .caddT16, dst := 1, src1 := .one (.dec 1), src2 := .pair (.dec 0) (.dec 0) } = false ∧
    Line.wf [] { instr := .caddT16, dst := 1, src1 := .pair (.dec 0) (.dec 0), src2 := .one (.hex 1) } = false := by
  decide

theorem test_wf_refuses_unheld_name :
    Line.wf [2] { instr := .addT16, dst := 1, src1 := .one (.result 1), src2 := .one (.dec 0) } = false ∧
    Line.wf [2] { instr := .addT16, dst := 1, src1 := .one (.dec 0), src2 := .one (.result 1) } = false ∧
    programWf [] [{ instr := .addT16, dst := 1, src1 := .one (.result 1), src2 := .one (.dec 0) }] = false := by
  decide

theorem test_wf_accepts :
    programWf []
      [{ instr := .addS16, dst := 1, src1 := .one (.dec 30000), src2 := .one (.dec 2000) },
        { instr := .addS16, dst := 2, src1 := .one (.result 1), src2 := .one (.dec 1000) }] = true := by
  decide

theorem test_legal_words : Legal 0x0A#5 ∧ ¬ Legal 0x0B#5 ∧ ¬ Legal 0x0E#5 := by decide

/-! ### Operations: vectors of 95_test_vectors.md sections 2.3 and 2.4, one step each -/

/-- Small state: the given values on the ports, nothing else. -/
def ports (op : ControlWord) (aRe aIm bRe bIm : Port) : State :=
  { State.reset with op := op, aRe := aRe, aIm := aIm, bRe := bRe, bIm := bIm }

/-- The result ports of a next state. -/
def sampled : Host.Outcome State Fault Refusal → Option (ResultPort × ResultPort)
  | .next s => some (s.yRe, s.yIm)
  | .fault _ => none
  | .refused _ => none

/-- The result ports after one step on the operation's control word. -/
def run (i : Instr) (aRe aIm bRe bIm : Port) : Option (ResultPort × ResultPort) :=
  sampled (step (ports (encode i) aRe aIm bRe bIm))

theorem test_vector_addT16 :
    run .addT16 0x7FFF#64 0xDEADBEEFDEADBEEF#64 0x0001#64 0x0123456789ABCDEF#64 =
        some (0xFFFFFFFFFFFFFFFFFFFFFFFFFFFF8000#128, 0#128) ∧
    run .addT16 0xFFFFFFFFFFFF0003#64 0xDEADBEEFDEADBEEF#64 0xFFFFFFFFFFFFFFFF#64 0x0123456789ABCDEF#64 =
        some (0x00000000000000000000000000000002#128, 0#128) := by
  decide

theorem test_vector_addT32 :
    run .addT32 0x7FFFFFFF#64 0xDEADBEEFDEADBEEF#64 0x00000001#64 0x0123456789ABCDEF#64 =
        some (0xFFFFFFFFFFFFFFFFFFFFFFFF80000000#128, 0#128) ∧
    run .addT32 0xFFFFFFFF00000003#64 0xDEADBEEFDEADBEEF#64 0xFFFFFFFFFFFFFFFF#64 0x0123456789ABCDEF#64 =
        some (0x00000000000000000000000000000002#128, 0#128) := by
  decide

theorem test_vector_addT64 :
    run .addT64 0x7FFFFFFFFFFFFFFF#64 0xDEADBEEFDEADBEEF#64 0x0000000000000001#64 0x0123456789ABCDEF#64 =
        some (0xFFFFFFFFFFFFFFFF8000000000000000#128, 0#128) ∧
    run .addT64 0x8000000000000000#64 0xDEADBEEFDEADBEEF#64 0xFFFFFFFFFFFFFFFF#64 0x0123456789ABCDEF#64 =
        some (0x00000000000000007FFFFFFFFFFFFFFF#128, 0#128) := by
  decide

theorem test_vector_addS16 :
    run .addS16 0x7FFF#64 0xDEADBEEFDEADBEEF#64 0x0001#64 0x0123456789ABCDEF#64 =
        some (0x00000000000000000000000000007FFF#128, 0#128) ∧
    run .addS16 0xFFFFFFFFFFFF0003#64 0xDEADBEEFDEADBEEF#64 0xFFFFFFFFFFFFFFFF#64 0x0123456789ABCDEF#64 =
        some (0x00000000000000000000000000000002#128, 0#128) := by
  decide

theorem test_vector_addS32 :
    run .addS32 0x7FFFFFFF#64 0xDEADBEEFDEADBEEF#64 0x00000001#64 0x0123456789ABCDEF#64 =
        some (0x0000000000000000000000007FFFFFFF#128, 0#128) ∧
    run .addS32 0xFFFFFFFF00000003#64 0xDEADBEEFDEADBEEF#64 0xFFFFFFFFFFFFFFFF#64 0x0123456789ABCDEF#64 =
        some (0x00000000000000000000000000000002#128, 0#128) := by
  decide

theorem test_vector_addS64 :
    run .addS64 0x7FFFFFFFFFFFFFFF#64 0xDEADBEEFDEADBEEF#64 0x0000000000000001#64 0x0123456789ABCDEF#64 =
        some (0x00000000000000007FFFFFFFFFFFFFFF#128, 0#128) ∧
    run .addS64 0x8000000000000000#64 0xDEADBEEFDEADBEEF#64 0xFFFFFFFFFFFFFFFF#64 0x0123456789ABCDEF#64 =
        some (0xFFFFFFFFFFFFFFFF8000000000000000#128, 0#128) := by
  decide

theorem test_vector_addL16 :
    run .addL16 0x7FFF#64 0xDEADBEEFDEADBEEF#64 0x0001#64 0x0123456789ABCDEF#64 =
        some (0x00000000000000000000000000008000#128, 0#128) ∧
    run .addL16 0xFFFFFFFFFFFF0003#64 0xDEADBEEFDEADBEEF#64 0xFFFFFFFFFFFFFFFF#64 0x0123456789ABCDEF#64 =
        some (0x00000000000000000000000000000002#128, 0#128) := by
  decide

theorem test_vector_addL32 :
    run .addL32 0x7FFFFFFF#64 0xDEADBEEFDEADBEEF#64 0x00000001#64 0x0123456789ABCDEF#64 =
        some (0x00000000000000000000000080000000#128, 0#128) ∧
    run .addL32 0xFFFFFFFF00000003#64 0xDEADBEEFDEADBEEF#64 0xFFFFFFFFFFFFFFFF#64 0x0123456789ABCDEF#64 =
        some (0x00000000000000000000000000000002#128, 0#128) := by
  decide

theorem test_vector_addL64 :
    run .addL64 0x7FFFFFFFFFFFFFFF#64 0xDEADBEEFDEADBEEF#64 0x0000000000000001#64 0x0123456789ABCDEF#64 =
        some (0x00000000000000008000000000000000#128, 0#128) ∧
    run .addL64 0x8000000000000000#64 0xDEADBEEFDEADBEEF#64 0xFFFFFFFFFFFFFFFF#64 0x0123456789ABCDEF#64 =
        some (0xFFFFFFFFFFFFFFFF7FFFFFFFFFFFFFFF#128, 0#128) := by
  decide

theorem test_vector_caddT16 :
    run .caddT16 0x7FFF#64 0x8000#64 0x7FFF#64 0x8000#64 =
        some (0xFFFFFFFFFFFFFFFFFFFFFFFFFFFFFFFE#128, 0x00000000000000000000000000000000#128) ∧
    run .caddT16 0x0001#64 0xFFFE#64 0x0003#64 0x0004#64 =
        some (0x00000000000000000000000000000004#128, 0x00000000000000000000000000000002#128) := by
  decide

theorem test_vector_caddT32 :
    run .caddT32 0x7FFFFFFF#64 0x80000000#64 0x7FFFFFFF#64 0x80000000#64 =
        some (0xFFFFFFFFFFFFFFFFFFFFFFFFFFFFFFFE#128, 0x00000000000000000000000000000000#128) ∧
    run .caddT32 0x00000001#64 0xFFFFFFFE#64 0x00000003#64 0x00000004#64 =
        some (0x00000000000000000000000000000004#128, 0x00000000000000000000000000000002#128) := by
  decide

theorem test_vector_caddT64 :
    run .caddT64 0x7FFFFFFFFFFFFFFF#64 0x8000000000000000#64 0x7FFFFFFFFFFFFFFF#64 0x8000000000000000#64 =
        some (0xFFFFFFFFFFFFFFFFFFFFFFFFFFFFFFFE#128, 0x00000000000000000000000000000000#128) ∧
    run .caddT64 0x0000000000000001#64 0xFFFFFFFFFFFFFFFE#64 0x0000000000000003#64 0x0000000000000004#64 =
        some (0x00000000000000000000000000000004#128, 0x00000000000000000000000000000002#128) := by
  decide

theorem test_vector_caddS16 :
    run .caddS16 0x7FFF#64 0x8000#64 0x7FFF#64 0x8000#64 =
        some (0x00000000000000000000000000007FFF#128, 0xFFFFFFFFFFFFFFFFFFFFFFFFFFFF8000#128) ∧
    run .caddS16 0x0001#64 0xFFFE#64 0x0003#64 0x0004#64 =
        some (0x00000000000000000000000000000004#128, 0x00000000000000000000000000000002#128) := by
  decide

theorem test_vector_caddS32 :
    run .caddS32 0x7FFFFFFF#64 0x80000000#64 0x7FFFFFFF#64 0x80000000#64 =
        some (0x0000000000000000000000007FFFFFFF#128, 0xFFFFFFFFFFFFFFFFFFFFFFFF80000000#128) ∧
    run .caddS32 0x00000001#64 0xFFFFFFFE#64 0x00000003#64 0x00000004#64 =
        some (0x00000000000000000000000000000004#128, 0x00000000000000000000000000000002#128) := by
  decide

theorem test_vector_caddS64 :
    run .caddS64 0x7FFFFFFFFFFFFFFF#64 0x8000000000000000#64 0x7FFFFFFFFFFFFFFF#64 0x8000000000000000#64 =
        some (0x00000000000000007FFFFFFFFFFFFFFF#128, 0xFFFFFFFFFFFFFFFF8000000000000000#128) ∧
    run .caddS64 0x0000000000000001#64 0xFFFFFFFFFFFFFFFE#64 0x0000000000000003#64 0x0000000000000004#64 =
        some (0x00000000000000000000000000000004#128, 0x00000000000000000000000000000002#128) := by
  decide

theorem test_vector_caddL16 :
    run .caddL16 0x7FFF#64 0x8000#64 0x7FFF#64 0x8000#64 =
        some (0x0000000000000000000000000000FFFE#128, 0xFFFFFFFFFFFFFFFFFFFFFFFFFFFF0000#128) ∧
    run .caddL16 0x0001#64 0xFFFE#64 0x0003#64 0x0004#64 =
        some (0x00000000000000000000000000000004#128, 0x00000000000000000000000000000002#128) := by
  decide

theorem test_vector_caddL32 :
    run .caddL32 0x7FFFFFFF#64 0x80000000#64 0x7FFFFFFF#64 0x80000000#64 =
        some (0x000000000000000000000000FFFFFFFE#128, 0xFFFFFFFFFFFFFFFFFFFFFFFF00000000#128) ∧
    run .caddL32 0x00000001#64 0xFFFFFFFE#64 0x00000003#64 0x00000004#64 =
        some (0x00000000000000000000000000000004#128, 0x00000000000000000000000000000002#128) := by
  decide

theorem test_vector_caddL64 :
    run .caddL64 0x7FFFFFFFFFFFFFFF#64 0x8000000000000000#64 0x7FFFFFFFFFFFFFFF#64 0x8000000000000000#64 =
        some (0x0000000000000000FFFFFFFFFFFFFFFE#128, 0xFFFFFFFFFFFFFFFF0000000000000000#128) ∧
    run .caddL64 0x0000000000000001#64 0xFFFFFFFFFFFFFFFE#64 0x0000000000000003#64 0x0000000000000004#64 =
        some (0x00000000000000000000000000000004#128, 0x00000000000000000000000000000002#128) := by
  decide


/-! ### Clamp table (95_test_vectors.md section 2.2); witnesses at both ends of each range -/

theorem test_sat_table_16 :
    sat 16 32767 = 32767 ∧ sat 16 32768 = 32767 ∧ sat 16 65534 = 32767 ∧ sat 16 (-32768) = -32768 ∧
    sat 16 (-32769) = -32768 ∧ sat 16 (-65536) = -32768 ∧ sat 16 (-1) = -1 := by
  decide

theorem test_sat_table_32 :
    sat 32 2147483647 = 2147483647 ∧ sat 32 2147483648 = 2147483647 ∧ sat 32 (-2147483648) = -2147483648 ∧
    sat 32 (-2147483649) = -2147483648 := by
  decide

theorem test_sat_table_64 :
    sat 64 9223372036854775807 = 9223372036854775807 ∧ sat 64 9223372036854775808 = 9223372036854775807 ∧
    sat 64 (-9223372036854775808) = -9223372036854775808 ∧ sat 64 (-9223372036854775809) = -9223372036854775808 := by
  decide

/-- From 40_saturation.md R22: both ends and just outside them. -/
theorem test_usat_16 : usat 16 65535 = 65535 ∧ usat 16 65536 = 65535 ∧ usat 16 0 = 0 ∧ usat 16 (-1) = 0 := by
  decide

/-- 95_test_vectors.md section 3, P4: fix(1.5, 14) and fix(0.75, 14); a tie goes away from zero. -/
theorem test_fix : fix (3 / 2) 14 = 24576 ∧ fix (3 / 4) 14 = 12288 ∧ fix (1 / 2) 0 = 1 ∧ fix (-1 / 2) 0 = -1 := by
  decide +kernel

/-- 10_state.md R10 with the operands of 95_test_vectors.md section 2.3. -/
theorem test_clamp_seen : clampSeen 16 0x7FFF#64 1#64 = true ∧ clampSeen 16 0x7FFE#64 1#64 = false := by decide

/-! ### One step of a program (95_test_vectors.md section 3) -/

/-- A state about to present one line, holding the given results. -/
def about (l : Line) (rs : List (Nat × Sample)) : State :=
  { State.reset with program := [l.assemble], results := rs }

/-- What is held under `k` after one step. -/
def heldAfter (k : Nat) : Host.Outcome State Fault Refusal → Option Sample
  | .next s => lookupResult k s.results
  | .fault _ => none
  | .refused _ => none

/-- P1 step 2: the clamped sum of a forwarded result. -/
theorem test_p1_step2 :
    heldAfter 2 (step (about { instr := .addS16, dst := 2, src1 := .one (.result 1), src2 := .one (.dec 1000) }
      [(1, { yRe := 0x7D00#128, yIm := 0#128 })])) = some { yRe := 0x7FFF#128, yIm := 0#128 } := by
  decide

/-- P2 step 2: both parts of a forwarded complex result clamp on their own. -/
theorem test_p2_step2 :
    heldAfter 2 (step (about
      { instr := .caddS32, dst := 2, src1 := .one (.result 1), src2 := .pair (.dec 100000000) (.dec (-100000000)) }
      [(1, { yRe := 0x7D2B7500#128, yIm := 0xFFFFFFFFFFFFFFFFFFFFFFFF82D48B00#128 })])) =
      some { yRe := 0x7FFFFFFF#128, yIm := 0xFFFFFFFFFFFFFFFFFFFFFFFF80000000#128 } := by
  decide

/-- P3 step 3: two 32-bit results of `ADD.L16` added by `ADD.S32`. -/
theorem test_p3_step3 :
    heldAfter 3 (step (about { instr := .addS32, dst := 3, src1 := .one (.result 1), src2 := .one (.result 2) }
      [(1, { yRe := 0x9C40#128, yIm := 0#128 }),
        (2, { yRe := 0xFFFFFFFFFFFFFFFFFFFFFFFFFFFF5038#128, yIm := 0#128 })])) =
      some { yRe := 0xFFFFFFFFFFFFFFFFFFFFFFFFFFFFEC78#128, yIm := 0#128 } := by
  decide

/-- P5: a reserved control word is refused by name, the legal word two bits away is not. -/
theorem test_p5 :
    step (ports 0x0F#5 1 2 3 4) = .refused (.reservedControlWord 0x0F#5) ∧
    sampled (step (ports 0x0A#5 1 2 3 4)) = some (4#128, 0#128) := by
  exact ⟨rfl, by decide⟩

/-! ### Witnesses: concrete values that meet each statement's hypotheses -/

theorem witness_FieldsSelectTheOperation :
    (0x1A#5).toNat % 4 ≠ 3 ∧ (0x1A#5).toNat / 4 % 4 ≠ 3 ∧ (0x1B#5).toNat % 4 = 3 ∧ (0x1C#5).toNat / 4 % 4 = 3 := by
  decide

theorem witness_DecodeAndEncodeAgree :
    decode 0x1A#5 = .ok .caddL64 ∧ decode 0x0F#5 = .error (.reservedControlWord 0x0F#5) := by decide

theorem witness_ReservedWordsAreRefused_idle :
    (ports 0x0B#5 0 0 0 0).program = [] ∧ step (ports 0x0B#5 0 0 0 0) = .refused (.reservedControlWord 0x0B#5) :=
  ⟨rfl, rfl⟩

/-- A presentation of a raw control word with literal operands. -/
def raw (op : ControlWord) : Presentation :=
  { op := op, dst := some 1, a := .pair (.dec 5) (.dec (-5)), b := .pair (.dec 7) (.dec (-7)) }

theorem witness_ReservedWordsAreRefused_presented :
    step { State.reset with program := [raw 0x1C#5] } = .refused (.reservedControlWord 0x1C#5) := rfl

/-- The neighbours 0x0A and 0x1A of reserved words complete, on the port and presented. -/
theorem witness_ReservedWordsAreRefused_completes :
    (sampled (step (ports 0x0A#5 0 0 0 0))).isSome = true ∧
    (sampled (step { State.reset with program := [raw 0x1A#5] })).isSome = true := by decide

theorem witness_StepRunsTheDecodedOperation :
    ((ports 0x14#5 1 2 3 4).program = [] ∧ decode (ports 0x14#5 1 2 3 4).op = .ok .caddS16) ∧
    decode (raw 0x14#5).op = .ok .caddS16 := by decide

theorem witness_FetchWordRunsNext :
    5 ≤ 8 ∧ sampled (step ((ports 0x0F#5 3 0 4 0).withFetchWord 8 (encode .addS16).toNat)) = some (7#128, 0#128) := by
  decide

/-- A settled state that holds a result: `ADD.S16` of 32767 and 1, clamped. -/
def settledState : State :=
  { ports 0x04#5 0x7FFF 0 1 0 with yRe := 0x7FFF, yIm := 0, results := [(1, { yRe := 0x7FFF, yIm := 0 })] }

theorem settledState_settled : Settled settledState := by
  intro y h
  have e : blockFunction settledState.op settledState.aRe settledState.aIm settledState.bRe settledState.bIm =
      some { yRe := 0x7FFF, yIm := 0 } := by decide
  rw [e] at h
  cases h
  rfl

theorem witness_StepKeepsTheInvariant : Inv settledState ∧ step settledState = .next settledState := by
  refine ⟨⟨by decide, ?_, ?_, settledState_settled⟩, rfl⟩
  · intro e he
    have : e = (1, { yRe := 0x7FFF, yIm := 0 }) := by simpa [settledState] using he
    subst this
    unfold InRange
    decide
  · unfold InRange outputs settledState
    decide

theorem witness_SettledPortsStayAsTheyAre :
    settledState.program = [] ∧ Legal settledState.op ∧ Settled settledState :=
  ⟨rfl, by decide, settledState_settled⟩

theorem witness_EarlySamplesAreNoObservation :
    sampleAfter Config.tSettle settledState = some { yRe := 0x7FFF, yIm := 0 } :=
  sampleAfter_tSettle (by decide)

/-- Under a reserved control word no sample is an observation (30_encoding.md R18). -/
theorem test_sample_under_reserved_word (held : Nat) : sampleAfter held (ports 0x0F#5 1 2 3 4) = none :=
  if_neg fun h => absurd h.2 (by decide)

theorem witness_OperandsAreSignedLowBits :
    (0xFFFFFFFFFFFF0001#64).toNat % 2 ^ 16 = (1#64).toNat % 2 ^ 16 ∧ opnd 16 0xFFFFFFFFFFFF0001#64 = 1 := by decide

theorem witness_IgnoredInputsNeverMatter :
    (0xFFFFFFFFFFFF0003#64).toNat % 2 ^ Instr.bits .caddT16 = (3#64).toNat % 2 ^ Instr.bits .caddT16 ∧
    Instr.kind .caddT16 = .complex := by decide

theorem witness_kinds : Instr.kind .addS64 = .scalar ∧ Instr.kind .caddL64 = .complex := by decide

theorem witness_ClampIsIdempotentAndMonotone :
    minOf 16 ≤ 32767 ∧ (32767 : Int) ≤ maxOf 16 ∧ sat 16 32767 ≤ sat 16 32768 := by decide

theorem witness_ClampTakesTheExactSum :
    signedLow Width.w16.bits 0x7FFF#64 + signedLow Width.w16.bits 1#64 > maxOf Width.w16.bits ∧
    signedLow Width.w16.bits 0x8000#64 + signedLow Width.w16.bits 0xFFFF#64 < minOf Width.w16.bits := by decide

theorem witness_ResultPortsAreSignExtended :
    Instr.tier .addS16 ≠ .extended ∧ Instr.tier .caddL64 = .extended := by decide

theorem witness_OperationsDoNotInteract :
    Legal settledState.op ∧ settledState.op = (ports 0x04#5 0x7FFF 0 1 0).op ∧ settledState ≠ ports 0x04#5 0x7FFF 0 1 0 := by
  decide

theorem witness_TiersAgreeWithoutOverflow :
    minOf Width.w16.bits ≤ signedLow Width.w16.bits 0x7FFE#64 + signedLow Width.w16.bits 1#64 ∧
    signedLow Width.w16.bits 0x7FFE#64 + signedLow Width.w16.bits 1#64 ≤ maxOf Width.w16.bits := by decide

theorem witness_RadixGivesTheReal : (24576 : Int) ≠ 0 ∧ (14 : Nat) ≠ 15 := by decide

theorem witness_PortBitsHaveTheirWeight : 127 < 128 ∧ (bits 128 (-1)).getLsbD 127 = true := by decide

theorem witness_ForwardedResultsAreReadExactly :
    lookupResult 1 settledState.results = some { yRe := 0x7FFF, yIm := 0 } ∧
    minOf Width.w16.bits ≤ (0x7FFF#128).toInt ∧ (0x7FFF#128).toInt ≤ maxOf Width.w16.bits := by decide

theorem witness_AddingZeroMoves : (ports 0x04#5 0x8000 0 0 0).bRe = 0 ∧ signedLow 16 0x8000#64 = -32768 := by decide

theorem witness_PresentedOperationKeepsItsSample :
    Legal (raw 0x14#5).op ∧ heldAfter 1 (step { State.reset with program := [raw 0x14#5] }) =
      some { yRe := 12#128, yIm := 0xFFFFFFFFFFFFFFFFFFFFFFFFFFFFFFF4#128 } := by decide

/-- The operation named `r1` replaces the sample held as `r1` and leaves the one held as `r2`. -/
theorem witness_PresentedOperationKeepsItsSample_otherName :
    let held : List (Nat × Sample) := [(1, { yRe := 3, yIm := 4 }), (2, { yRe := 5, yIm := 6 })]
    let after := step { State.reset with program := [raw 0x14#5], results := held }
    (raw 0x14#5).dst ≠ some 2 ∧ heldAfter 2 after = some { yRe := 5, yIm := 6 } ∧
      heldAfter 1 after = some { yRe := 12#128, yIm := 0xFFFFFFFFFFFFFFFFFFFFFFFFFFFFFFF4#128 } := by decide

/-- A state about to present `CADD.S16` while a reserved word stands on port `op`. -/
theorem witness_StepKeepsReadiness : ReadyToStep { ports 0x0F#5 0 0 0 0 with program := [raw 0x14#5] } := by
  refine ⟨fun p hp => ?_, fun h => nomatch h⟩
  rw [List.mem_singleton.1 hp]
  decide

theorem witness_ProgramsRunToTheirEnd :
    (∀ p ∈ [raw 0x14#5, raw 0x00#5], Legal p.op) ∧ ¬ Legal (raw 0x0F#5).op := by decide

theorem witness_CheckedProgramsMeetTheirReading :
    programWf (settledState.results.map Prod.fst)
      [{ instr := .addL16, dst := 2, src1 := .one (.result 1), src2 := .one (.dec 1) }] = true := by decide

end Sys2Proof.Tests
end

/-! ### Fixed-point reading (00_scope.md R2, R3) -/

namespace Sys2Proof.Machine

theorem realOf_mul_two_pow (r : Nat) (v : Int) : realOf r v * 2 ^ r = v :=
  div_mul_cancel₀ _ (by positivity)

theorem realOf_add (r : Nat) (v w : Int) : realOf r (v + w) = realOf r v + realOf r w := by
  unfold realOf
  rw [Int.cast_add, add_div]

/-- A value other than zero determines its radix from the real it stands for. -/
theorem realOf_radix_injective {v : Int} (hv : v ≠ 0) : Function.Injective fun r => realOf r v := by
  intro r r' (h : realOf r v = realOf r' v)
  have hreal : realOf r v ≠ 0 := div_ne_zero (Int.cast_ne_zero.2 hv) (by positivity)
  have hpow : realOf r v * 2 ^ r = realOf r v * 2 ^ r' := by
    rw [realOf_mul_two_pow, h, realOf_mul_two_pow]
  exact pow_right_injective₀ (by norm_num) (by norm_num) (mul_left_cancel₀ hreal hpow)

/-- Settles O35: multiplying by `2^r` undoes the reading, and the powers of two are distinct. -/
theorem radixGivesTheReal : Obligations.RadixGivesTheReal := fun r _ v =>
  ⟨realOf_mul_two_pow r v, fun hv hr h => hr (realOf_radix_injective hv h)⟩

/-! ### A lane whose exact sum is in range (41_scalar_add.md R27 to R29) -/

theorem width_bits_cases (w : Width) : w.bits = 16 ∨ w.bits = 32 ∨ w.bits = 64 := by
  cases w <;> decide

theorem exactSum_eq_signedLow (n : Nat) (a b : Port) : exactSum n a b = signedLow n a + signedLow n b := by
  rw [exactSum, opnd_eq_toInt, opnd_eq_toInt, signedLow, signedLow]

/-- No tier alters an exact sum that is in the N-bit range, and the extended tier alters none. -/
theorem tierResult_exactSum_of_inRange (t : Tier) {n : Nat} (hn : 0 < n) {a b : Port}
    (h : t = .extended ∨ (minOf n ≤ exactSum n a b ∧ exactSum n a b ≤ maxOf n)) :
    tierResult t n (exactSum n a b) = exactSum n a b := by
  cases t with
  | truncated =>
    obtain ⟨hlo, hhi⟩ := h.resolve_left (by decide)
    rw [tierResult, wrap_exactSum n hn, if_neg (not_lt.2 hhi), if_neg (not_lt.2 hlo)]
  | saturated =>
    obtain ⟨hlo, hhi⟩ := h.resolve_left (by decide)
    rw [tierResult, sat, if_neg (not_lt.2 hhi), if_neg (not_lt.2 hlo)]
  | extended => rfl

theorem lane_toInt_of_inRange (t : Tier) (w : Width) {a b : Port}
    (h : t = .extended ∨ (minOf w.bits ≤ signedLow w.bits a + signedLow w.bits b ∧
      signedLow w.bits a + signedLow w.bits b ≤ maxOf w.bits)) :
    (lane t w.bits a b).toInt = signedLow w.bits a + signedLow w.bits b := by
  have hw := width_bits_cases w
  rw [← exactSum_eq_signedLow] at h ⊢
  rw [lane_toInt t w.bits hw, tierResult_exactSum_of_inRange t (by omega) h]

/-- Settles O36: the lane delivers the exact sum, and reading at a radix is additive. -/
theorem additionKeepsTheRadix : Obligations.AdditionKeepsTheRadix := by
  intro r t w a b h
  rw [lane_toInt_of_inRange t w h, realOf_add]

/-! ### The block's function of the control word and the operands (10_state.md R5) -/

theorem fieldT_encode (i : Instr) : fieldT (encode i) = encodeTier i.tier := by cases i <;> rfl

theorem fieldC_encode_eq_one_iff (i : Instr) : fieldC (encode i) = 0b1#1 ↔ i.kind = .complex := by
  cases i <;> decide

theorem nominalWidth_fieldW_encode (i : Instr) : nominalWidth (fieldW (encode i)) = i.bits := by
  cases i <;> rfl

/-- What the field `T` of a tier selects is what the tier delivers for the exact sum. -/
theorem componentValue_encodeTier (t : Tier) (n : Nat) (a b : Port) :
    componentValue (encodeTier t) n a b = tierResult t n (exactSum n a b) := by
  rw [exactSum_eq_signedLow]
  cases t with
  | truncated => exact (wrap_eq_bmod n _).symm
  | saturated => exact (sat_eq_max_min n _).symm
  | extended => rfl

theorem ofInt_componentValue_encodeTier (t : Tier) (n : Nat) (a b : Port) :
    BitVec.ofInt 128 (componentValue (encodeTier t) n a b) = lane t n a b := by
  rw [componentValue_encodeTier, lane, bits_eq_ofInt]

/-- The block's function at the control word of an operation: the lanes of its tier and width. -/
theorem blockFunction_encode (i : Instr) (aRe aIm bRe bIm : Port) :
    blockFunction (encode i) aRe aIm bRe bIm = some
      { yRe := lane i.tier i.bits aRe bRe
        yIm := if i.kind = .complex then lane i.tier i.bits aIm bIm else 0#128 } := by
  rw [blockFunction, if_pos (legal_encode i), fieldT_encode, nominalWidth_fieldW_encode]
  simp only [ofInt_componentValue_encodeTier, fieldC_encode_eq_one_iff]

theorem blockFunction_of_not_legal {op : ControlWord} (h : ¬ Legal op) (aRe aIm bRe bIm : Port) :
    blockFunction op aRe aIm bRe bIm = none := if_neg h

/-- Every operation drives the result ports with the block's function at its control word. -/
theorem exec_drives_blockFunction (i : Instr) (s : State) :
    ∃ y, blockFunction (encode i) s.aRe s.aIm s.bRe s.bIm = some y ∧ exec i s = .next (drive y.yRe y.yIm s) := by
  refine ⟨_, blockFunction_encode i _ _ _ _, ?_⟩
  rcases exec_cases i s with ⟨hk, he⟩ | ⟨hk, he⟩
  · rw [he, if_neg (by rw [hk]; decide)]
    rfl
  · rw [he, if_pos hk]

theorem evaluate_drives_blockFunction {s : State} (h : Legal s.op) :
    ∃ y, blockFunction s.op s.aRe s.aIm s.bRe s.bIm = some y ∧ evaluate s = .next (drive y.yRe y.yIm s) := by
  obtain ⟨i, hi⟩ := decode_ok_of_legal h
  rw [evaluate_of_decode hi, ← (legal_of_decode_ok hi).2]
  exact exec_drives_blockFunction i s

/-- Settles O41: a legal word drives the block's function, a reserved one has none and is refused. -/
theorem stepIsTheBlockFunction : Obligations.StepIsTheBlockFunction := by
  intro s hprogram
  rw [step_idle hprogram]
  by_cases h : Legal s.op
  · obtain ⟨y, hy, he⟩ := evaluate_drives_blockFunction h
    rw [hy, he]
    rfl
  · rw [blockFunction_of_not_legal h, evaluate_of_not_legal h]

end Sys2Proof.Machine

/-! ### What every step keeps (10_state.md R8, 30_encoding.md R20, 70_reset_and_hazards.md R56) -/

namespace Sys2Proof.Machine

theorem two_mul_minOf {n : Nat} (hn : 0 < n) : 2 * minOf n = -2 ^ n := by
  rw [minOf, mul_neg, mul_pow_sub_one hn.ne']

theorem two_mul_maxOf {n : Nat} (hn : 0 < n) : 2 * maxOf n = 2 ^ n - 2 := by
  rw [maxOf, mul_sub, mul_pow_sub_one hn.ne', mul_one]

/-- In every tier a lane carries a number that the exact sum of two N-bit operands can have. -/
theorem lane_toInt_bounds (t : Tier) {n : Nat} (hn : n = 16 ∨ n = 32 ∨ n = 64) (a b : Port) :
    -2 ^ n ≤ (lane t n a b).toInt ∧ (lane t n a b).toInt ≤ 2 ^ n - 2 := by
  have hpos : 0 < n := by omega
  rw [lane_toInt t n hn, ← two_mul_minOf hpos, ← two_mul_maxOf hpos]
  exact tierResult_bounds t n hpos a b

/-- The widest range of any operation is that of N = 64. -/
theorem lane_toInt_widest_bounds (t : Tier) {n : Nat} (hn : n = 16 ∨ n = 32 ∨ n = 64) (a b : Port) :
    -2 ^ 64 ≤ (lane t n a b).toInt ∧ (lane t n a b).toInt ≤ 2 ^ 64 - 2 := by
  have hb := lane_toInt_bounds t hn a b
  have hpow : (2 : Int) ^ n ≤ 2 ^ 64 := pow_le_pow_right₀ (by norm_num) (by omega)
  omega

/-- The block's function delivers nothing outside the widest range. -/
theorem blockFunction_inRange {op : ControlWord} {aRe aIm bRe bIm : Port} {y : Sample}
    (h : blockFunction op aRe aIm bRe bIm = some y) : InRange y := by
  by_cases hop : Legal op
  · obtain ⟨i, hi⟩ := decode_ok_of_legal hop
    obtain ⟨-, rfl⟩ := legal_of_decode_ok hi
    rw [blockFunction_encode] at h
    obtain rfl := Option.some.inj h
    have hn := instr_bits_cases i
    obtain ⟨hlo, hhi⟩ := lane_toInt_widest_bounds i.tier hn aRe bRe
    refine ⟨hlo, hhi, ?_⟩
    dsimp only
    split_ifs
    · exact lane_toInt_widest_bounds i.tier hn aIm bIm
    · decide
  · rw [blockFunction_of_not_legal hop] at h
    cases h

/-- Evaluation that completes drives the block's function of the ports, and does nothing else. -/
theorem drive_of_evaluate_eq_next {s t : State} (h : evaluate s = .next t) :
    ∃ y, blockFunction s.op s.aRe s.aIm s.bRe s.bIm = some y ∧ t = drive y.yRe y.yIm s := by
  by_cases hop : Legal s.op
  · obtain ⟨y, hy, he⟩ := evaluate_drives_blockFunction hop
    exact ⟨y, hy, Host.Outcome.next.inj (h.symm.trans he)⟩
  · rw [evaluate_of_not_legal hop] at h
    cases h

/-- Evaluation establishes the part of the invariant about the outputs, whatever stood on them before; the part about
the held results is asked for, since it leaves them as they are. -/
theorem inv_of_evaluate_eq_next {s t : State} (h : evaluate s = .next t) (hrising : resultsWf s.results = true)
    (hheld : ∀ e ∈ s.results, InRange e.2) : Inv t := by
  obtain ⟨y, hy, rfl⟩ := drive_of_evaluate_eq_next h
  exact
    { rising := hrising
      held := hheld
      range := blockFunction_inRange hy
      settled := fun _ hz => Option.some.inj (hy.symm.trans hz) }

theorem mem_collect_results {dst : Option Nat} {s : State} {e : Nat × Sample} (h : e ∈ (collect dst s).results) :
    e.2 = outputs s ∨ e ∈ s.results := by
  cases dst with
  | none => exact .inr h
  | some k => exact (mem_storeResult h).imp_left fun he => congrArg Prod.snd he

theorem collect_keeps_inv (dst : Option Nat) {s : State} (h : Inv s) : Inv (collect dst s) where
  rising := collect_wf dst s h.rising
  held e he := by
    rcases mem_collect_results he with hnew | hold
    · rw [hnew]
      exact h.range
    · exact h.held e hold
  range := by
    rw [outputs_collect]
    exact h.range
  settled := by
    simpa [Settled] using h.settled

theorem collectNext_eq_next {dst : Option Nat} {o : Host.Outcome State Fault Refusal} {t : State}
    (h : collectNext dst o = .next t) : ∃ u, o = .next u ∧ t = collect dst u := by
  cases o with
  | next u => exact ⟨u, rfl, (Host.Outcome.next.inj h).symm⟩
  | fault r => cases h
  | refused r => cases h

/-- Settles O9: evaluating makes the outputs settled and in range, and the sample kept is one of those outputs. -/
theorem stepKeepsTheInvariant : Obligations.StepKeepsTheInvariant := by
  intro s t hs h
  cases hp : s.program with
  | nil =>
    rw [step_idle hp] at h
    exact inv_of_evaluate_eq_next h hs.rising hs.held
  | cons p rest =>
    rw [step_cons hp] at h
    obtain ⟨u, hu, rfl⟩ := collectNext_eq_next h
    exact collect_keeps_inv p.dst (inv_of_evaluate_eq_next hu hs.rising hs.held)

/-! ### Which inputs an operation reads (10_state.md R5, R7, R9) -/

theorem lowBits_eq_of_toNat_mod_eq {n : Nat} {p q : Port} (h : p.toNat % 2 ^ n = q.toNat % 2 ^ n) :
    lowBits n p = lowBits n q := by
  rw [lowBits_eq_setWidth, lowBits_eq_setWidth]
  apply BitVec.eq_of_toNat_eq
  rwa [BitVec.toNat_setWidth, BitVec.toNat_setWidth]

theorem opnd_64_eq_toInt (p : Port) : opnd 64 p = p.toInt := by
  rw [opnd_eq_toInt, BitVec.setWidth_eq]

/-- Settles O12: an operand is the library's signed reading of the low bits, and of nothing else. -/
theorem operandsAreSignedLowBits : Obligations.OperandsAreSignedLowBits := by
  intro w p
  obtain ⟨hlo, hhi⟩ := opnd_bounds w.bits p
  refine ⟨opnd_eq_toInt w.bits p, hlo, hhi, fun q h => ?_, opnd_64_eq_toInt p⟩
  rw [opnd, opnd, lowBits_eq_of_toNat_mod_eq h]

theorem lane_congr_of_toNat_mod_eq (t : Tier) {n : Nat} {a a' b b' : Port} (ha : a.toNat % 2 ^ n = a'.toNat % 2 ^ n)
    (hb : b.toNat % 2 ^ n = b'.toNat % 2 ^ n) : lane t n a b = lane t n a' b' :=
  lane_congr_lowBits t n (lowBits_eq_of_toNat_mod_eq ha) (lowBits_eq_of_toNat_mod_eq hb)

theorem exec_of_scalar {i : Instr} (hk : i.kind = .scalar) (s : State) :
    exec i s = .next (drive (lane i.tier i.bits s.aRe s.bRe) 0#128 s) := by
  rw [exec_eq, hk]
  rfl

theorem exec_of_complex {i : Instr} (hk : i.kind = .complex) (s : State) :
    exec i s = .next (drive (lane i.tier i.bits s.aRe s.bRe) (lane i.tier i.bits s.aIm s.bIm) s) := by
  rw [exec_eq, hk]
  rfl

/-- Settles O13: a lane reads the low bits of its two ports, and a scalar operation has no imaginary lane. -/
theorem ignoredInputsNeverMatter : Obligations.IgnoredInputsNeverMatter := by
  intro i s s' haRe hbRe him
  have hre := lane_congr_of_toNat_mod_eq i.tier haRe hbRe
  cases hk : i.kind with
  | scalar =>
    refine ⟨_, _, exec_of_scalar hk s, ?_⟩
    rw [hre]
    exact exec_of_scalar hk s'
  | complex =>
    obtain ⟨haIm, hbIm⟩ := him hk
    refine ⟨_, _, exec_of_complex hk s, ?_⟩
    rw [hre, lane_congr_of_toNat_mod_eq i.tier haIm hbIm]
    exact exec_of_complex hk s'

/-- Settles O14: the one lane of a scalar operation is that of the real ports. -/
theorem scalarOperationsIgnoreImaginaryPorts : Obligations.ScalarOperationsIgnoreImaginaryPorts :=
  fun _ s hk => ⟨_, exec_of_scalar hk s, fun p q => exec_of_scalar hk { s with aIm := p, bIm := q }⟩

/-- Settles O29: evaluation drives the block's function, which has the control word and the operands as arguments. -/
theorem operationsDoNotInteract : Obligations.OperationsDoNotInteract := by
  intro s s' hop hop' haRe haIm hbRe hbIm
  obtain ⟨y, hy, he⟩ := evaluate_drives_blockFunction hop
  obtain ⟨y', hy', he'⟩ := evaluate_drives_blockFunction (hop' ▸ hop)
  rw [← hop', ← haRe, ← haIm, ← hbRe, ← hbIm, hy] at hy'
  obtain rfl := Option.some.inj hy'
  exact ⟨_, _, he, he', rfl⟩

/-! ### What stands on the result ports (10_state.md R8, R10) -/

/-- The range of a result of operation `i` (10_state.md R8). -/
def InTierRange (i : Instr) (v : Int) : Prop :=
  (i.tier ≠ .extended → minOf i.bits ≤ v ∧ v ≤ maxOf i.bits) ∧
  (i.tier = .extended → -2 ^ i.bits ≤ v ∧ v ≤ 2 ^ i.bits - 2)

theorem tierResult_bounds_of_ne_extended {t : Tier} (ht : t ≠ .extended) {n : Nat} (hn : 0 < n) (v : Int) :
    minOf n ≤ tierResult t n v ∧ tierResult t n v ≤ maxOf n := by
  cases t with
  | truncated => exact wrap_bounds n hn v
  | saturated => exact sat_bounds n v
  | extended => exact absurd rfl ht

theorem lane_inTierRange (i : Instr) (a b : Port) : InTierRange i (lane i.tier i.bits a b).toInt := by
  have hn := instr_bits_cases i
  refine ⟨fun ht => ?_, fun _ => lane_toInt_bounds i.tier hn a b⟩
  rw [lane_toInt i.tier i.bits hn]
  exact tierResult_bounds_of_ne_extended ht (by omega) _

theorem zero_inTierRange (i : Instr) : InTierRange i (0#128).toInt := by
  unfold InTierRange
  cases i <;> decide

theorem resultBits_of_ne_extended {i : Instr} (h : i.tier ≠ .extended) : i.resultBits = i.bits := by
  cases ht : i.tier with
  | extended => exact absurd ht h
  | _ => rw [Instr.resultBits, ht]

theorem resultBits_of_extended {i : Instr} (h : i.tier = .extended) : i.resultBits = 2 * i.bits := by
  rw [Instr.resultBits, h]

/-- A number in the range of operation `i` fits the operation's result width. -/
theorem InTierRange.fits_resultBits {i : Instr} {v : Int} (h : InTierRange i v) :
    -2 ^ (i.resultBits - 1) ≤ v ∧ v < 2 ^ (i.resultBits - 1) := by
  obtain ⟨hnarrow, hwide⟩ := h
  by_cases ht : i.tier = .extended
  · obtain ⟨hlo, hhi⟩ := hwide ht
    have hn := instr_bits_cases i
    have hpow : (2 : Int) ^ i.bits ≤ 2 ^ (2 * i.bits - 1) := pow_le_pow_right₀ (by norm_num) (by omega)
    rw [resultBits_of_extended ht]
    omega
  · obtain ⟨hlo, hhi⟩ := hnarrow ht
    rw [resultBits_of_ne_extended ht]
    exact ⟨hlo, Int.lt_of_le_sub_one hhi⟩

theorem resultBits_bounds (i : Instr) : 0 < i.resultBits ∧ i.resultBits ≤ 128 := by
  cases i <;> decide

/-- A result port whose number fits `n` bits is the sign extension of its low `n` bits. -/
theorem eq_signExtend_setWidth_of_fits {n : Nat} (hpos : 0 < n) (hn : n ≤ 128) {y : ResultPort}
    (hlo : -2 ^ (n - 1) ≤ y.toInt) (hhi : y.toInt < 2 ^ (n - 1)) : y = (y.setWidth n).signExtend 128 := by
  have hlow : (y.setWidth n).toInt = y.toInt := by
    rw [← BitVec.signExtend_eq_setWidth_of_le y hn, BitVec.toInt_signExtend, min_eq_left hn, ← BitVec.toInt_ofInt]
    exact BitVec.toInt_ofInt_eq_self hpos hlo hhi
  apply BitVec.eq_of_toInt_eq
  rw [BitVec.toInt_signExtend_of_le hn, hlow]

theorem eq_signExtend_resultBits {i : Instr} {y : ResultPort} (h : InTierRange i y.toInt) :
    y = (y.setWidth i.resultBits).signExtend 128 := by
  obtain ⟨hpos, hle⟩ := resultBits_bounds i
  obtain ⟨hlo, hhi⟩ := h.fits_resultBits
  exact eq_signExtend_setWidth_of_fits hpos hle hlo hhi

/-- Both result ports of an operation carry a number in its range: a lane, or the zero of a scalar operation. -/
theorem exec_delivers_inTierRange (i : Instr) (s : State) :
    ∃ y z, exec i s = .next (drive y z s) ∧ InTierRange i y.toInt ∧ InTierRange i z.toInt := by
  cases hk : i.kind with
  | scalar => exact ⟨_, _, exec_of_scalar hk s, lane_inTierRange i _ _, zero_inTierRange i⟩
  | complex => exact ⟨_, _, exec_of_complex hk s, lane_inTierRange i _ _, lane_inTierRange i _ _⟩

/-- Settles O27: a number in the operation's range fits its result width, so the port is its sign extension. -/
theorem resultPortsAreSignExtended : Obligations.ResultPortsAreSignExtended := by
  intro i s
  obtain ⟨y, z, he, hy, hz⟩ := exec_delivers_inTierRange i s
  refine ⟨y, z, he, eq_signExtend_resultBits hy, eq_signExtend_resultBits hz, fun ht => ?_, fun ht => ?_⟩
  · exact and_assoc.1 ⟨hy.1 ht, hz.1 ht⟩
  · exact and_assoc.1 ⟨hy.2 ht, hz.2 ht⟩

/-- The clamp alters exactly what lies outside the range. -/
theorem sat_ne_self_iff (n : Nat) (v : Int) : sat n v ≠ v ↔ v < minOf n ∨ v > maxOf n := by
  have := minOf_le_maxOf n
  rw [sat_eq_max_min]
  omega

/-- Settles O33: the extended lane is the exact sum and the saturated lane its clamp. -/
theorem driverCanTellAClamp : Obligations.DriverCanTellAClamp := by
  intro w a b
  have hw := width_bits_cases w
  rw [clampSeen, bne_iff_ne, ← BitVec.toInt_ne, lane_toInt .saturated w.bits hw, lane_toInt .extended w.bits hw,
    ← exactSum_eq_signedLow]
  exact sat_ne_self_iff w.bits (exactSum w.bits a b)

end Sys2Proof.Machine

/-! ### Bit order (20_memory.md R12) -/

namespace Sys2Proof.Machine

theorem natCast_toNat_bits (m : Nat) (v : Int) : ((bits m v).toNat : Int) = v % 2 ^ m := by
  rw [bits_eq_ofInt, BitVec.toNat_ofInt, Int.toNat_of_nonneg (Int.emod_nonneg _ (by positivity)), Nat.cast_pow,
    Nat.cast_ofNat]

theorem getLsbD_eq_decide_natCast_toNat {m : Nat} (p : BitVec m) (i : Nat) :
    p.getLsbD i = decide ((p.toNat : Int) / 2 ^ i % 2 = 1) := by
  rw [BitVec.getLsbD, Nat.testBit_eq_decide_div_mod_eq]
  norm_cast

/-- What the reduction modulo `2^m` takes away is a multiple of `2^(i+1)`, so the coefficient of `2^i` stays. -/
theorem emod_two_pow_ediv_two_pow_emod_two {m i : Nat} (h : i < m) (v : Int) :
    v % 2 ^ m / 2 ^ i % 2 = v / 2 ^ i % 2 := by
  obtain ⟨k, rfl⟩ := Nat.exists_eq_add_of_lt h
  have hsplit : v = v % 2 ^ (i + k + 1) + 2 * (2 ^ k * (v / 2 ^ (i + k + 1))) * 2 ^ i := by
    linear_combination -Int.emod_add_mul_ediv v (2 ^ (i + k + 1))
  have hquot : v / 2 ^ i = v % 2 ^ (i + k + 1) / 2 ^ i + 2 * (2 ^ k * (v / 2 ^ (i + k + 1))) := by
    rw [← Int.add_mul_ediv_right _ _ (by positivity), ← hsplit]
  rw [hquot, Int.add_mul_emod_self_left]

/-- Settles O38: the pattern's number is `v` modulo `2^m`, which has the bits of `v` below `m`. -/
theorem portBitsHaveTheirWeight : Obligations.PortBitsHaveTheirWeight := by
  intro m i v h
  rw [getLsbD_eq_decide_natCast_toNat, natCast_toNat_bits, emod_two_pow_ediv_two_pow_emod_two h]

end Sys2Proof.Machine

/-! ### The control word and its fields (30_encoding.md R14 to R18) -/

namespace Sys2Proof

theorem fieldW_encode (i : Instr) : fieldW (encode i) = encodeWidth i.width := by cases i <;> rfl

theorem decodeWidth_encodeWidth (w : Width) : decodeWidth (encodeWidth w) = some w := by cases w <;> rfl

theorem decodeTier_encodeTier (t : Tier) : decodeTier (encodeTier t) = some t := by cases t <;> rfl

theorem fieldC_encode (i : Instr) : fieldC (encode i) = encodeKind i.kind := by cases i <;> rfl

theorem decodeKind_encodeKind (k : Kind) : decodeKind (encodeKind k) = k := by cases k <;> rfl

/-- The three columns of the opcode map determine the row. -/
theorem ofFields_columns (i : Instr) : Instr.ofFields i.kind i.tier i.width = i := by cases i <;> rfl

theorem decode_encode (i : Instr) : decode (encode i) = .ok i := by
  rw [decode, Machine.fieldT_encode, fieldW_encode, fieldC_encode, decodeTier_encodeTier, decodeWidth_encodeWidth,
    decodeKind_encodeKind]
  exact congrArg Except.ok (ofFields_columns i)

theorem decode_eq_ok_iff {op : ControlWord} {i : Instr} : decode op = .ok i ↔ encode i = op :=
  ⟨fun h => (legal_of_decode_ok h).2, fun h => h ▸ decode_encode i⟩

/-- A legal word is the control word of an operation. -/
theorem exists_encode_eq_of_legal {op : ControlWord} (h : Legal op) : ∃ i, encode i = op := by
  obtain ⟨i, hi⟩ := decode_ok_of_legal h
  exact ⟨i, decode_eq_ok_iff.1 hi⟩

theorem legal_iff_exists_encode_eq {op : ControlWord} : Legal op ↔ ∃ i, encode i = op :=
  ⟨exists_encode_eq_of_legal, fun ⟨i, hi⟩ => hi ▸ legal_encode i⟩

theorem decode_eq_reserved_iff {op : ControlWord} : decode op = .error (.reservedControlWord op) ↔ ¬ Legal op := by
  refine ⟨fun h hop => ?_, decode_error_of_not_legal⟩
  obtain ⟨i, hi⟩ := decode_ok_of_legal hop
  rw [hi] at h
  cases h

/-- Settles O3: the fields of an operation's word give its columns back, and exactly the legal words are such words. -/
theorem decodeAndEncodeAgree : Obligations.DecodeAndEncodeAgree := by
  refine ⟨decode_encode, fun _ _ => decode_eq_ok_iff.1, fun op => ?_⟩
  rw [decode_eq_reserved_iff, legal_iff_exists_encode_eq, not_exists]

theorem toNat_fieldW (op : ControlWord) : (fieldW op).toNat = op.toNat % 4 := by
  simp [fieldW]

theorem toNat_fieldT (op : ControlWord) : (fieldT op).toNat = op.toNat / 4 % 4 := by
  simp [fieldT, Nat.shiftRight_eq_div_pow]

theorem toNat_fieldC (op : ControlWord) : (fieldC op).toNat = op.toNat / 16 := by
  have := op.isLt
  simp [fieldC, Nat.shiftRight_eq_div_pow]
  omega

/-- The reserved words in numbers: `W = 11` or `T = 11` (R18). -/
theorem not_legal_iff (op : ControlWord) : ¬ Legal op ↔ op.toNat % 4 = 3 ∨ op.toNat / 4 % 4 = 3 := by
  rw [← toNat_fieldW, ← toNat_fieldT, not_and_or, not_not, not_not, ← BitVec.toNat_inj, ← BitVec.toNat_inj]
  rfl

theorem toNat_encodeWidth_iff (w : Width) :
    ((encodeWidth w).toNat = 0 ↔ w.bits = 16) ∧ ((encodeWidth w).toNat = 1 ↔ w.bits = 32) ∧
    ((encodeWidth w).toNat = 2 ↔ w.bits = 64) := by
  cases w <;> decide

theorem toNat_encodeTier_iff (t : Tier) :
    ((encodeTier t).toNat = 0 ↔ t = .truncated) ∧ ((encodeTier t).toNat = 1 ↔ t = .saturated) ∧
    ((encodeTier t).toNat = 2 ↔ t = .extended) := by
  cases t <;> decide

theorem toNat_encodeKind_iff (k : Kind) :
    ((encodeKind k).toNat = 0 ↔ k = .scalar) ∧ ((encodeKind k).toNat = 1 ↔ k = .complex) := by
  cases k <;> decide

/-- Settles O1: a word that is not reserved is an operation's, and its fields encode the operation's columns. -/
theorem fieldsSelectTheOperation : Obligations.FieldsSelectTheOperation := by
  refine ⟨fun op h => decode_error_of_not_legal ((not_legal_iff op).2 h), fun op hW hT => ?_⟩
  have hop : Legal op := not_not.1 fun h => ((not_legal_iff op).1 h).elim hW hT
  obtain ⟨i, rfl⟩ := exists_encode_eq_of_legal hop
  obtain ⟨h16, h32, h64⟩ := toNat_encodeWidth_iff i.width
  obtain ⟨htrunc, hsat, hext⟩ := toNat_encodeTier_iff i.tier
  obtain ⟨hscalar, hcomplex⟩ := toNat_encodeKind_iff i.kind
  rw [← toNat_fieldW, ← toNat_fieldT, ← toNat_fieldC, fieldW_encode, Machine.fieldT_encode, fieldC_encode]
  exact ⟨i, decode_encode i, h16, h32, h64, htrunc, hsat, hext, hscalar, hcomplex⟩

/-! ### Mnemonics (30_encoding.md R20) -/

theorem mem_allInstrs (i : Instr) : i ∈ allInstrs := by cases i <;> decide

theorem mnemonics_nodup : (allInstrs.map Instr.mnemonic).Nodup := by decide

theorem mnemonic_injective : Function.Injective Instr.mnemonic := fun i j h =>
  List.inj_on_of_nodup_map mnemonics_nodup (mem_allInstrs i) (mem_allInstrs j) h

theorem mnemonic_of_instrOfMnemonic_eq_some {m : String} {i : Instr} (h : instrOfMnemonic m = some i) :
    i.mnemonic = m :=
  beq_iff_eq.1 (List.find?_some (p := fun i : Instr => i.mnemonic == m) h)

/-- Settles O5: every operation is in the list searched, and no other has its mnemonic. -/
theorem mnemonicsNameOperations : Obligations.MnemonicsNameOperations := by
  intro i
  have hfound : (instrOfMnemonic i.mnemonic).isSome :=
    List.find?_isSome.2 ⟨i, mem_allInstrs i, beq_self_eq_true _⟩
  obtain ⟨j, hj⟩ := Option.isSome_iff_exists.1 hfound
  rw [hj, mnemonic_injective (mnemonic_of_instrOfMnemonic_eq_some hj)]

end Sys2Proof

/-! ### Which steps are refused (30_encoding.md R18) -/

namespace Sys2Proof.Machine

theorem evaluate_completes_iff (s : State) : (∃ t, evaluate s = .next t) ↔ Legal s.op := by
  refine ⟨fun ⟨t, ht⟩ => ?_, fun h => ?_⟩
  · by_contra h
    rw [evaluate_of_not_legal h] at ht
    cases ht
  · obtain ⟨y, -, he⟩ := evaluate_drives_blockFunction h
    exact ⟨_, he⟩

theorem evaluate_refused_iff (s : State) : evaluate s = .refused (.reservedControlWord s.op) ↔ ¬ Legal s.op := by
  refine ⟨fun h hop => ?_, evaluate_of_not_legal⟩
  obtain ⟨t, ht⟩ := (evaluate_completes_iff s).2 hop
  rw [ht] at h
  cases h

theorem collectNext_eq_refused_iff (dst : Option Nat) (o : Host.Outcome State Fault Refusal) (r : Refusal) :
    collectNext dst o = .refused r ↔ o = .refused r := by
  cases o <;> simp [collectNext]

theorem collectNext_completes_iff (dst : Option Nat) (o : Host.Outcome State Fault Refusal) :
    (∃ t, collectNext dst o = .next t) ↔ ∃ t, o = .next t := by
  cases o <;> simp [collectNext]

/-- Settles O4: evaluating decides between the two, and neither presenting nor sampling changes which it is. -/
theorem reservedWordsAreRefused : Obligations.ReservedWordsAreRefused := by
  refine ⟨fun s hprogram => ?_, fun s p rest hprogram => ?_⟩
  · rw [step_idle hprogram, evaluate_completes_iff, ← not_legal_iff, not_not]
    exact ⟨evaluate_refused_iff s, Iff.rfl⟩
  · rw [step_cons hprogram, collectNext_completes_iff, collectNext_eq_refused_iff, evaluate_completes_iff,
      ← not_legal_iff, not_not]
    exact ⟨evaluate_refused_iff (present p { s with program := rest }), Iff.rfl⟩

/-! ### What a source makes an operation read (30_encoding.md R20, 70_reset_and_hazards.md R61) -/

theorem width_bits_le_64 (w : Width) : w.bits ≤ 64 := by cases w <;> decide

theorem opnd_eq_bmod_toNat (n : Nat) (p : Port) : opnd n p = (p.toNat : Int).bmod (2 ^ n) := by
  rw [opnd_eq_toInt, BitVec.toInt_setWidth]

/-- Reducing a literal modulo 2^64 to place it on a port loses nothing that a reading of N ≤ 64 bits sees. -/
theorem opnd_bits_64 {n : Nat} (hn : n ≤ 64) (v : Int) : opnd n (bits 64 v) = v.bmod (2 ^ n) := by
  have hdvd : ((2 ^ n : Nat) : Int) ∣ 2 ^ 64 := by
    push_cast
    exact pow_dvd_pow 2 hn
  rw [opnd_eq_bmod_toNat, natCast_toNat_bits, ← Int.emod_bmod, Int.emod_emod_of_dvd v hdvd, Int.emod_bmod]

/-- Settles O42: a literal's port pattern is its value modulo 2^64, which an operation reads modulo 2^N. -/
theorem literalsAreReadWrapped : Obligations.LiteralsAreReadWrapped := fun w _ _ v p =>
  ⟨bits_eq_ofInt 64 v, rfl, opnd_bits_64 (width_bits_le_64 w) v, opnd_eq_bmod_toNat w.bits p⟩

theorem placeRe_result {k : Nat} {rs : List (Nat × Sample)} {y : Sample} (h : lookupResult k rs = some y) (n : Nat) :
    placeRe n rs (.one (.result k)) = forwardBits y.yRe := by
  rw [placeRe, placeScalar, forwardRe, h]

theorem placeIm_result {k : Nat} {rs : List (Nat × Sample)} {y : Sample} (h : lookupResult k rs = some y) (n : Nat) :
    placeIm n rs (.one (.result k)) = forwardBits y.yIm := by
  rw [placeIm, forwardIm, h]

/-- A result that fits N bits is the sign extension of its low N bits, which are all that forwarding and reading
keep. -/
theorem opnd_forwardBits_of_inRange (w : Width) {y : ResultPort} (hlo : minOf w.bits ≤ y.toInt)
    (hhi : y.toInt ≤ maxOf w.bits) : opnd w.bits (forwardBits y) = y.toInt := by
  have hn := width_bits_cases w
  have hext := eq_signExtend_setWidth_of_fits (by omega) (by omega) hlo (Int.lt_of_le_sub_one hhi)
  calc opnd w.bits (forwardBits y) = (y.setWidth w.bits).toInt := by
        rw [opnd_eq_toInt, forwardBits_eq_setWidth, BitVec.setWidth_setWidth_of_le y (width_bits_le_64 w)]
    _ = ((y.setWidth w.bits).signExtend 128).toInt := (BitVec.toInt_signExtend_of_le (by omega)).symm
    _ = y.toInt := by rw [← hext]

/-- Settles O43: the name places bits [63:0] of the held component, and its low N bits carry a number that fits. -/
theorem forwardedResultsAreReadExactly : Obligations.ForwardedResultsAreReadExactly := by
  intro w n k rs y h
  rw [placeRe_result h, placeIm_result h]
  exact ⟨opnd_forwardBits_of_inRange w, opnd_forwardBits_of_inRange w⟩

/-! ### Moving a value by adding zero (30_encoding.md R20) -/

@[simp] theorem kind_ofFields (k : Kind) (t : Tier) (w : Width) : (Instr.ofFields k t w).kind = k := by
  cases k <;> cases t <;> cases w <;> rfl

@[simp] theorem tier_ofFields (k : Kind) (t : Tier) (w : Width) : (Instr.ofFields k t w).tier = t := by
  cases k <;> cases t <;> cases w <;> rfl

@[simp] theorem bits_ofFields (k : Kind) (t : Tier) (w : Width) : (Instr.ofFields k t w).bits = w.bits := by
  cases k <;> cases t <;> cases w <;> rfl

theorem exec_ofFields_scalar (t : Tier) (w : Width) (s : State) :
    exec (.ofFields .scalar t w) s = .next (drive (lane t w.bits s.aRe s.bRe) 0#128 s) := by
  simpa using exec_of_scalar (kind_ofFields .scalar t w) s

theorem signedLow_zero (n : Nat) : signedLow n 0 = 0 := by
  rw [signedLow, BitVec.ofNat_eq_ofNat, BitVec.setWidth_zero, BitVec.toInt_zero]

theorem signedLow_bounds (n : Nat) (p : Port) : minOf n ≤ signedLow n p ∧ signedLow n p ≤ maxOf n := by
  rw [signedLow, ← opnd_eq_toInt]
  exact opnd_bounds n p

/-- An operand is in the N-bit range, so no tier alters its sum with zero. -/
theorem lane_zero_toInt (t : Tier) (w : Width) (a : Port) : (lane t w.bits a 0).toInt = signedLow w.bits a := by
  rw [lane_toInt_of_inRange, signedLow_zero, add_zero]
  rw [signedLow_zero, add_zero]
  exact .inr (signedLow_bounds w.bits a)

/-- Settles O44: the real lane carries the sum of the operand and zero. -/
theorem addingZeroMoves : Obligations.AddingZeroMoves := by
  intro t w s _ hb
  refine ⟨_, exec_ofFields_scalar t w s, ?_⟩
  rw [hb, lane_zero_toInt]

end Sys2Proof.Machine

/-! ### The clamp (40_saturation.md R21, R22, R25) -/

namespace Sys2Proof.Machine

theorem sat_of_gt_maxOf {n : Nat} {v : Int} (h : v > maxOf n) : sat n v = maxOf n := if_pos h

theorem sat_of_lt_minOf {n : Nat} {v : Int} (h : v < minOf n) : sat n v = minOf n := by
  have := minOf_le_maxOf n
  rw [sat, if_neg (by omega), if_pos h]

theorem sat_of_inRange {n : Nat} {v : Int} (hlo : minOf n ≤ v) (hhi : v ≤ maxOf n) : sat n v = v := by
  rw [sat, if_neg (not_lt.2 hhi), if_neg (not_lt.2 hlo)]

theorem sat_monotone (n : Nat) : Monotone (sat n) := by
  intro v w h
  rw [sat_eq_max_min, sat_eq_max_min]
  exact max_le_max_left _ (min_le_min_left _ h)

/-- Settles O17: the clamp is a composition of `max` and `min`, and what it returns is in range. -/
theorem clampIsIdempotentAndMonotone : Obligations.ClampIsIdempotentAndMonotone := by
  intro n v w
  obtain ⟨hlo, hhi⟩ := sat_bounds n v
  exact ⟨sat_of_inRange, sat_of_inRange hlo hhi, fun h => sat_monotone n h, hlo, hhi⟩

theorem usat_eq_max_min (n : Nat) (v : Int) : usat n v = max 0 (min (2 ^ n - 1) v) := by
  have : (0 : Int) < 2 ^ n := by positivity
  unfold usat
  split_ifs <;> omega

/-- Settles O16: the range `[0, 2^n - 1]` is not empty, so `max` and `min` find the nearer end. -/
theorem unsignedClampRange : Obligations.UnsignedClampRange := by
  intro n v
  have : (0 : Int) < 2 ^ n := by positivity
  rw [usat_eq_max_min]
  omega

/-- Settles O15: the three cases of R21, with the ends of the range evaluated at each width. -/
theorem signedClampOfThreeWidths : Obligations.SignedClampOfThreeWidths := fun _ =>
  ⟨⟨sat_of_gt_maxOf (n := 16), sat_of_lt_minOf (n := 16), sat_of_inRange (n := 16)⟩,
    ⟨sat_of_gt_maxOf (n := 32), sat_of_lt_minOf (n := 32), sat_of_inRange (n := 32)⟩,
    ⟨sat_of_gt_maxOf (n := 64), sat_of_lt_minOf (n := 64), sat_of_inRange (n := 64)⟩⟩

/-! ### The clamp of the exact sum (40_saturation.md R24) -/

theorem width_bits_pos (w : Width) : 0 < w.bits := by cases w <;> decide

/-- What has been wrapped is in range, so clamping it afterwards does nothing. -/
theorem sat_wrap {n : Nat} (hn : 0 < n) (v : Int) : sat n (wrap n v) = wrap n v :=
  sat_of_inRange (wrap_bounds n hn v).1 (wrap_bounds n hn v).2

/-- On overflow the clamped sum keeps the side of zero on which the exact sum lies, and the wrapped one changes it. -/
theorem sat_exactSum_ne_wrap {n : Nat} (hn : 0 < n) {a b : Port}
    (h : exactSum n a b > maxOf n ∨ exactSum n a b < minOf n) :
    sat n (exactSum n a b) ≠ wrap n (exactSum n a b) := by
  have hpow : (0 : Int) < 2 ^ n := by positivity
  have hmin := two_mul_minOf hn
  have hmax := two_mul_maxOf hn
  obtain ⟨hlow, hhigh⟩ := exactSum_bounds n a b
  rw [wrap_exactSum n hn]
  rcases h with h | h
  · rw [sat_of_gt_maxOf h, if_pos h]
    omega
  · rw [sat_of_lt_minOf h, if_neg (by omega), if_pos h]
    omega

theorem lane_saturated_toInt (w : Width) (a b : Port) :
    (lane .saturated w.bits a b).toInt = sat w.bits (exactSum w.bits a b) :=
  lane_toInt .saturated w.bits (width_bits_cases w) a b

/-- Settles O18: the saturated lane is the clamp of the exact sum, and the wrapped sum is its own clamp. -/
theorem clampTakesTheExactSum : Obligations.ClampTakesTheExactSum := by
  intro w a b
  have hn := width_bits_pos w
  rw [← exactSum_eq_signedLow, lane_saturated_toInt, sat_wrap hn]
  exact ⟨sat_eq_max_min w.bits _, sat_exactSum_ne_wrap hn⟩

/-! ### The adder circuits (40_saturation.md R25, 41_scalar_add.md R27 to R29) -/

theorem saddOverflow_iff {n : Nat} (x y : BitVec n) :
    x.saddOverflow y = true ↔ x.toInt + y.toInt > maxOf n ∨ x.toInt + y.toInt < minOf n := by
  simp [BitVec.saddOverflow, maxOf, minOf]

/-- The three sign bits tell exactly whether the sum of two N-bit numbers is out of range. -/
theorem msb_overflow_iff {n : Nat} (x y : BitVec n) :
    x.msb = y.msb ∧ (x + y).msb ≠ x.msb ↔ x.toInt + y.toInt > maxOf n ∨ x.toInt + y.toInt < minOf n := by
  rw [← saddOverflow_iff, BitVec.saddOverflow_eq]
  simp

/-- On overflow both operands have the sign of the exact sum, and that sign selects the end of the range. -/
theorem toInt_end_of_overflow {n : Nat} (hn : 0 < n) {x y : BitVec n}
    (h : x.toInt + y.toInt > maxOf n ∨ x.toInt + y.toInt < minOf n) :
    (if x.msb = true then BitVec.intMin n else BitVec.intMax n).toInt = sat n (x.toInt + y.toInt) := by
  have hlo := y.le_toInt
  have hhi := y.toInt_lt
  simp only [BitVec.msb_eq_toInt, decide_eq_true_eq]
  rcases h with h | h
  · have hx : ¬ x.toInt < 0 := by
      unfold maxOf at h
      omega
    rw [if_neg hx, BitVec.toInt_intMax, sat_of_gt_maxOf h, maxOf]
  · have hx : x.toInt < 0 := by
      unfold minOf at h
      omega
    rw [if_pos hx, BitVec.toInt_intMin_of_pos hn, sat_of_lt_minOf h, minOf]

theorem toInt_add_of_not_overflow {n : Nat} {x y : BitVec n}
    (h : ¬ (x.toInt + y.toInt > maxOf n ∨ x.toInt + y.toInt < minOf n)) :
    (x + y).toInt = sat n (x.toInt + y.toInt) := by
  obtain ⟨hhi, hlo⟩ := not_or.1 h
  rw [BitVec.toInt_add_of_not_saddOverflow (mt (saddOverflow_iff x y).1 h),
    sat_of_inRange (not_lt.1 hlo) (not_lt.1 hhi)]

theorem adderCircuit_truncated (n : Nat) (a b : Port) :
    adderCircuit .truncated n a b = BitVec.ofInt 128 (wrap n (signedLow n a + signedLow n b)) := by
  rw [adderCircuit, BitVec.signExtend, BitVec.toInt_add, wrap_eq_bmod, signedLow, signedLow]

theorem adderCircuit_saturated {n : Nat} (hn : 0 < n) (a b : Port) :
    adderCircuit .saturated n a b = BitVec.ofInt 128 (sat n (signedLow n a + signedLow n b)) := by
  have hmsb := msb_overflow_iff (a.setWidth n) (b.setWidth n)
  rw [adderCircuit, signedLow, signedLow]
  by_cases h : (a.setWidth n).toInt + (b.setWidth n).toInt > maxOf n ∨
      (a.setWidth n).toInt + (b.setWidth n).toInt < minOf n
  · rw [if_pos (hmsb.2 h), BitVec.signExtend, toInt_end_of_overflow hn h]
  · rw [if_neg (mt hmsb.1 h), BitVec.signExtend, toInt_add_of_not_overflow h]

theorem adderCircuit_extended (n : Nat) (a b : Port) :
    adderCircuit .extended n a b = BitVec.ofInt 128 (signedLow n a + signedLow n b) :=
  (BitVec.ofInt_add _ _).symm

/-- The circuit of a tier puts on the result port what a lane of that tier does. -/
theorem adderCircuit_eq_lane (t : Tier) {n : Nat} (hn : 0 < n) (a b : Port) : adderCircuit t n a b = lane t n a b := by
  rw [lane, exactSum_eq_signedLow, bits_eq_ofInt]
  cases t with
  | truncated => exact adderCircuit_truncated n a b
  | saturated => exact adderCircuit_saturated hn a b
  | extended => exact adderCircuit_extended n a b

/-- Settles O40: every operation drives the result ports with lanes, and a lane is its tier's circuit. -/
theorem operationsEqualTheAdderCircuits : Obligations.OperationsEqualTheAdderCircuits := by
  intro i s
  have hn : 0 < i.bits := width_bits_pos i.width
  simp only [adderCircuit_eq_lane i.tier hn]
  cases hk : i.kind with
  | scalar => exact exec_of_scalar hk s
  | complex => exact exec_of_complex hk s

end Sys2Proof.Machine

/-! ### What a tier delivers, in numbers (41_scalar_add.md R26 to R38) -/

namespace Sys2Proof.Machine

/-- The number a tier delivers for a sum, in the words of the statements: wrapped, clamped or the sum itself. -/
def delivered (t : Tier) (n : Nat) : Int → Int :=
  match t with
  | .truncated => wrapped n
  | .saturated => clamped n
  | .extended => fun r => r

/-- An exact sum overflows by less than 2^N, so reducing modulo 2^N adds or takes away 2^N at most once. -/
theorem wrap_exactSum_eq_wrapped {n : Nat} (hn : 0 < n) (a b : Port) :
    wrap n (exactSum n a b) = wrapped n (exactSum n a b) := by
  rw [wrap_exactSum n hn]
  exact if_congr Int.sub_one_lt_iff rfl rfl

theorem tierResult_exactSum_eq_delivered (t : Tier) {n : Nat} (hn : 0 < n) (a b : Port) :
    tierResult t n (exactSum n a b) = delivered t n (exactSum n a b) := by
  cases t with
  | truncated => exact wrap_exactSum_eq_wrapped hn a b
  | saturated => exact sat_eq_max_min n _
  | extended => rfl

theorem lane_toInt_eq_delivered (t : Tier) (w : Width) (a b : Port) :
    (lane t w.bits a b).toInt = delivered t w.bits (signedLow w.bits a + signedLow w.bits b) := by
  rw [lane_toInt t w.bits (width_bits_cases w), tierResult_exactSum_eq_delivered t (width_bits_pos w),
    exactSum_eq_signedLow]

/-- The word of a scalar operation decodes to it, and it delivers what its tier and width say. -/
theorem decode_encode_and_scalarDelivers {i : Instr} (hk : i.kind = .scalar) :
    decode (encode i) = .ok i ∧ ScalarDelivers i i.bits (delivered i.tier i.bits) :=
  ⟨decode_encode i, fun s => ⟨_, exec_of_scalar hk s, lane_toInt_eq_delivered i.tier i.width s.aRe s.bRe⟩⟩

/-- Settles O19: the three words are those of scalar operations of the truncated tier. -/
theorem scalarTruncatedAddsWrap : Obligations.ScalarTruncatedAddsWrap :=
  ⟨decode_encode_and_scalarDelivers (i := .addT16) rfl, decode_encode_and_scalarDelivers (i := .addT32) rfl,
    decode_encode_and_scalarDelivers (i := .addT64) rfl⟩

/-- Settles O20: the three words are those of scalar operations of the saturated tier. -/
theorem scalarSaturatedAddsClamp : Obligations.ScalarSaturatedAddsClamp :=
  ⟨decode_encode_and_scalarDelivers (i := .addS16) rfl, decode_encode_and_scalarDelivers (i := .addS32) rfl,
    decode_encode_and_scalarDelivers (i := .addS64) rfl⟩

/-- Settles O21: the three words are those of scalar operations of the extended tier. -/
theorem scalarExtendedAddsAreExact : Obligations.ScalarExtendedAddsAreExact :=
  ⟨decode_encode_and_scalarDelivers (i := .addL16) rfl, decode_encode_and_scalarDelivers (i := .addL32) rfl,
    decode_encode_and_scalarDelivers (i := .addL64) rfl⟩

/-! ### The exact sum and its commutativity (41_scalar_add.md R26) -/

theorem exactSum_pow_bounds {n : Nat} (hn : 0 < n) (a b : Port) :
    -2 ^ n ≤ exactSum n a b ∧ exactSum n a b ≤ 2 ^ n - 2 := by
  rw [← two_mul_minOf hn, ← two_mul_maxOf hn]
  exact exactSum_bounds n a b

/-- Swapping the `a` and `b` ports leaves what an operation drives onto both result ports. -/
theorem exec_swap_operands (i : Instr) (s : State) :
    ∃ y z, exec i s = .next (drive y z s) ∧
      exec i { s with aRe := s.bRe, aIm := s.bIm, bRe := s.aRe, bIm := s.aIm } =
        .next (drive y z { s with aRe := s.bRe, aIm := s.bIm, bRe := s.aRe, bIm := s.aIm }) := by
  cases hk : i.kind with
  | scalar =>
    refine ⟨_, _, exec_of_scalar hk s, ?_⟩
    rw [lane_comm]
    exact exec_of_scalar hk _
  | complex =>
    refine ⟨_, _, exec_of_complex hk s, ?_⟩
    rw [lane_comm _ _ s.aRe, lane_comm _ _ s.aIm]
    exact exec_of_complex hk _

/-- Settles O25: each operand lies in the N-bit range, and a lane is symmetric in its two ports. -/
theorem additionIsExactAndCommutative : Obligations.AdditionIsExactAndCommutative :=
  ⟨fun w a b => ⟨exactSum_eq_signedLow w.bits a b, exactSum_pow_bounds (width_bits_pos w) a b⟩, exec_swap_operands⟩

/-! ### The extended tier, and the tiers while the sum is in range (41_scalar_add.md R27 to R29) -/

/-- The extended lane is that of an operation of the extended tier, whose results are 2N bits wide. -/
theorem lane_extended_fits (w : Width) (a b : Port) :
    -2 ^ (2 * w.bits - 1) ≤ (lane .extended w.bits a b).toInt ∧
    (lane .extended w.bits a b).toInt < 2 ^ (2 * w.bits - 1) := by
  have hrange := (lane_inTierRange (.ofFields .scalar .extended w) a b).fits_resultBits
  rwa [resultBits_of_extended (tier_ofFields .scalar .extended w), tier_ofFields, bits_ofFields] at hrange

/-- Settles O26: the lane carries the exact sum, whose range lies inside that of 2N bits. -/
theorem extendedTierCannotOverflow : Obligations.ExtendedTierCannotOverflow := by
  intro w a b
  have hn := width_bits_cases w
  obtain ⟨hlo, hhi⟩ := lane_toInt_bounds .extended hn a b
  obtain ⟨hmin, hmax⟩ := lane_extended_fits w a b
  exact ⟨lane_toInt_of_inRange .extended w (.inl rfl), hlo, hhi, hmin, hmax,
    eq_signExtend_setWidth_of_fits (by omega) (by omega) hmin hmax⟩

/-- Settles O32: in range, the lane carries the exact sum in every tier, and in the extended tier always. -/
theorem tiersAgreeWithoutOverflow : Obligations.TiersAgreeWithoutOverflow := by
  intro t w a b hlo hhi
  apply BitVec.eq_of_toInt_eq
  rw [lane_toInt_of_inRange t w (.inr ⟨hlo, hhi⟩), lane_toInt_of_inRange .extended w (.inl rfl)]

end Sys2Proof.Machine

/-! ### The complex operations (42_complex_add.md R39 to R49) -/

namespace Sys2Proof.Machine

/-- The word of a complex operation decodes to it, and each of its two lanes delivers what its tier and width say. -/
theorem decode_encode_and_complexDelivers {i : Instr} (hk : i.kind = .complex) :
    decode (encode i) = .ok i ∧ ComplexDelivers i i.bits (delivered i.tier i.bits) :=
  ⟨decode_encode i, fun s => ⟨_, _, exec_of_complex hk s, lane_toInt_eq_delivered i.tier i.width s.aRe s.bRe,
    lane_toInt_eq_delivered i.tier i.width s.aIm s.bIm⟩⟩

/-- Settles O22: the three words are those of complex operations of the truncated tier. -/
theorem complexTruncatedAddsWrap : Obligations.ComplexTruncatedAddsWrap :=
  ⟨decode_encode_and_complexDelivers (i := .caddT16) rfl, decode_encode_and_complexDelivers (i := .caddT32) rfl,
    decode_encode_and_complexDelivers (i := .caddT64) rfl⟩

/-- Settles O23: the three words are those of complex operations of the saturated tier. -/
theorem complexSaturatedAddsClamp : Obligations.ComplexSaturatedAddsClamp :=
  ⟨decode_encode_and_complexDelivers (i := .caddS16) rfl, decode_encode_and_complexDelivers (i := .caddS32) rfl,
    decode_encode_and_complexDelivers (i := .caddS64) rfl⟩

/-- Settles O24: the three words are those of complex operations of the extended tier. -/
theorem complexExtendedAddsAreExact : Obligations.ComplexExtendedAddsAreExact :=
  ⟨decode_encode_and_complexDelivers (i := .caddL16) rfl, decode_encode_and_complexDelivers (i := .caddL32) rfl,
    decode_encode_and_complexDelivers (i := .caddL64) rfl⟩

theorem exec_ofFields_complex (t : Tier) (w : Width) (s : State) :
    exec (.ofFields .complex t w) s =
      .next (drive (lane t w.bits s.aRe s.bRe) (lane t w.bits s.aIm s.bIm) s) := by
  simpa using exec_of_complex (kind_ofFields .complex t w) s

/-- Settles O30: both kinds drive lanes of one tier and width, the complex one a second lane of the imaginary ports. -/
theorem complexOperationsAreTwoScalarLanes : Obligations.ComplexOperationsAreTwoScalarLanes := fun t w s =>
  ⟨_, _, exec_ofFields_complex t w s, exec_ofFields_scalar t w s,
    exec_ofFields_scalar t w { s with aRe := s.aIm, bRe := s.bIm }⟩

/-- Settles O31: each lane has only the two ports of its own component as arguments. -/
theorem complexLanesHaveNoCrossTerms : Obligations.ComplexLanesHaveNoCrossTerms := fun _ s p q hk =>
  ⟨_, _, _, _, exec_of_complex hk s, exec_of_complex hk { s with aIm := p, bIm := q },
    exec_of_complex hk { s with aRe := p, bRe := q }⟩

end Sys2Proof.Machine

/-! ### What completes, and what is left ahead (60_exceptions.md R50, 70_reset_and_hazards.md R57, R61) -/

namespace Sys2Proof.Machine

/-- A presented legal operation completes: its sources stand on the ports, the block's function of them on the result
ports, and the driver keeps that sample. -/
theorem step_cons_of_legal {s : State} {p : Presentation} {rest : List Presentation} (h : s.program = p :: rest)
    (hop : Legal p.op) :
    ∃ y, blockFunction p.op (placeRe s.presented s.results p.a) (placeIm s.presented s.results p.a)
        (placeRe s.presented s.results p.b) (placeIm s.presented s.results p.b) = some y ∧
      step s = .next (collect p.dst (drive y.yRe y.yIm (present p { s with program := rest }))) := by
  obtain ⟨y, hy, he⟩ := evaluate_drives_blockFunction (s := present p { s with program := rest }) hop
  refine ⟨y, hy, ?_⟩
  rw [step_cons h, he, collectNext]

theorem step_idle_of_legal {s : State} (h : s.program = []) (hop : Legal s.op) :
    ∃ y, blockFunction s.op s.aRe s.aIm s.bRe s.bIm = some y ∧ step s = .next (drive y.yRe y.yIm s) := by
  rw [step_idle h]
  exact evaluate_drives_blockFunction hop

/-- Settles O48: the word evaluated is legal and stays on port `op`, and what is left of the program was there
before. -/
theorem stepKeepsReadiness : Obligations.StepKeepsReadiness := by
  rintro s ⟨hprogram, hidle⟩
  cases hp : s.program with
  | nil =>
    have hop : Legal s.op := hidle hp
    obtain ⟨y, -, hstep⟩ := step_idle_of_legal hp hop
    exact ⟨_, hstep, hprogram, fun _ => hop⟩
  | cons p rest =>
    rw [LegalProgram, hp, List.forall_mem_cons] at hprogram
    obtain ⟨hop, hrest⟩ := hprogram
    obtain ⟨y, -, hstep⟩ := step_cons_of_legal hp hop
    refine ⟨_, hstep, ?_, fun _ => ?_⟩
    · simpa [LegalProgram] using hrest
    · simpa using hop

/-- Settles O28: an operation drives the two result ports and does nothing else; and there is no fault to raise, since
the type `Fault` has no constructor. -/
theorem everyOperationCompletes : Obligations.EveryOperationCompletes := by
  refine ⟨fun i s => ?_, fun _ f => nomatch f⟩
  obtain ⟨y, -, he⟩ := exec_drives_blockFunction i s
  exact ⟨y.yRe, y.yIm, he⟩

end Sys2Proof.Machine

/-! ### Sampling and power-up (70_reset_and_hazards.md R56, R59, R60) -/

namespace Sys2Proof.Machine

/-- Settles O10: the result ports already carry what the step drives on them. -/
theorem settledPortsStayAsTheyAre : Obligations.SettledPortsStayAsTheyAre := by
  intro s hprogram hop hsettled
  obtain ⟨y, hy, hstep⟩ := step_idle_of_legal hprogram hop
  rw [hstep, ← hsettled y hy]
  rfl

/-- Settles O8: the ports evaluate to themselves, and evaluation establishes the invariant. -/
theorem resetMeetsTheStepInvariant : Obligations.ResetMeetsTheStepInvariant := by
  have hevaluate : evaluate State.reset = .next State.reset := rfl
  exact inv_of_evaluate_eq_next hevaluate rfl fun _ he => nomatch he

theorem sampleAfter_eq_none_iff (held : Nat) (s : State) :
    sampleAfter held s = none ↔ held < Config.tSettle ∨ ¬ Legal s.op := by
  rw [sampleAfter, ite_eq_right_iff, ← not_le, ← not_and_or]
  exact imp_congr_right fun _ => iff_of_false nofun id

theorem sampleAfter_eq_some_iff (held : Nat) (s : State) (y : Sample) :
    sampleAfter held s = some y ↔ (Config.tSettle ≤ held ∧ Legal s.op) ∧ outputs s = y := by
  rw [sampleAfter, Option.ite_none_right_eq_some, Option.some.injEq]

/-- Settles O11: a sample is the outputs under a condition on the time and the control word, which waiting keeps. -/
theorem earlySamplesAreNoObservation : Obligations.EarlySamplesAreNoObservation := by
  intro s held
  rw [← not_legal_iff]
  refine ⟨sampleAfter_eq_none_iff held s, ?_, fun more y h => ?_⟩
  · rcases sampleAfter_cases held s with ⟨-, -, h⟩ | ⟨-, h⟩
    · exact .inr h
    · exact .inl h
  · obtain ⟨⟨hheld, hop⟩, hy⟩ := (sampleAfter_eq_some_iff held s y).1 h
    exact (sampleAfter_eq_some_iff (held + more) s y).2 ⟨⟨Nat.le_add_right_of_le hheld, hop⟩, hy⟩

/-! ### The sample kept of a presented operation (30_encoding.md R20, 70_reset_and_hazards.md R60, R61) -/

theorem lookup_collect_dst {dst : Option Nat} {k : Nat} (h : dst = some k) (s : State) :
    lookupResult k (collect dst s).results = some (outputs s) := by
  rw [h, collect_some_results, lookup_storeResult_same]

theorem lookup_collect_other {dst : Option Nat} {j : Nat} (h : dst ≠ some j) (s : State) :
    lookupResult j (collect dst s).results = lookupResult j s.results := by
  cases dst with
  | none => rfl
  | some k => exact lookup_storeResult_other k j (fun hj => h (congrArg some hj.symm)) _ _

/-- Settles O45: neither driving the result ports nor keeping the sample moves an input port, the program or another
name's result. -/
theorem presentedOperationKeepsItsSample : Obligations.PresentedOperationKeepsItsSample := by
  intro s p rest hprogram hop
  obtain ⟨y, hy, hstep⟩ := step_cons_of_legal hprogram hop
  refine ⟨_, hstep, ?_⟩
  simp only [collect_program, collect_op, collect_presented, collect_aRe, collect_aIm, collect_bRe, collect_bIm,
    outputs_collect]
  exact ⟨rfl, rfl, rfl, rfl, rfl, rfl, rfl, hy, fun _ hk => lookup_collect_dst hk _,
    fun _ hj => lookup_collect_other hj _⟩

/-! ### Runs of a program (70_reset_and_hazards.md R57, R61) -/

section Run
variable {M : Host.Core} {s t : M.State}

theorem run_succ_of_next (h : M.step s = .next t) (k : Nat) : M.run (k + 1) s = M.run k t := by
  rw [Host.Core.run, h]

theorem run_one_of_refused {r : M.Refusal} (h : M.step s = .refused r) : M.run 1 s = .refused r := by
  rw [Host.Core.run, h]

end Run

theorem step_of_reserved {s : State} {p : Presentation} {rest : List Presentation} (h : s.program = p :: rest)
    (hop : ¬ Legal p.op) : step s = .refused (.reservedControlWord p.op) := by
  rw [step_cons h, evaluate_of_not_legal hop]
  rfl

/-- A legal first part of the program is run one step an operation, and whatever run is left goes on from there. -/
theorem run_legal_front {s : State} {before after : List Presentation} (h : s.program = before ++ after)
    (hlegal : ∀ q ∈ before, Legal q.op) :
    ∃ t : State, t.program = after ∧ t.presented = s.presented + before.length ∧
      ∀ k, Host.Core.run core (k + before.length) s = Host.Core.run core k t := by
  induction before generalizing s with
  | nil => exact ⟨s, h, rfl, fun _ => rfl⟩
  | cons p before ih =>
    obtain ⟨hop, hrest⟩ := List.forall_mem_cons.1 hlegal
    obtain ⟨u, hstep, hleft, -, hcount, -⟩ := presentedOperationKeepsItsSample s p _ h hop
    obtain ⟨t, hprogram, hpresented, hrun⟩ := ih hleft hrest
    refine ⟨t, hprogram, ?_, fun k => (run_succ_of_next (M := core) hstep _).trans (hrun k)⟩
    rw [hpresented, hcount, List.length_cons]
    omega

/-- Settles O46: the legal first part is the whole program, or all that stands before the reserved word. -/
theorem programsRunToTheirEnd : Obligations.ProgramsRunToTheirEnd := by
  refine ⟨fun s hlegal => ?_, fun s before after p hprogram hlegal hop => ?_⟩
  · obtain ⟨t, hend, hpresented, hrun⟩ := run_legal_front (List.append_nil s.program).symm hlegal
    exact ⟨t, (congrArg (core.run · s) (Nat.zero_add _).symm).trans (hrun 0), hend, hpresented⟩
  · obtain ⟨t, hleft, -, hrun⟩ := run_legal_front hprogram hlegal
    rw [Nat.add_comm, hrun]
    exact run_one_of_refused (M := core) (step_of_reserved hleft hop)

/-! ### A checked program read as assignments (30_encoding.md R20, 70_reset_and_hazards.md R61) -/

/-- Every one of the names `ks` has a result in `rs`. -/
def AllHeld (rs : List (Nat × Sample)) (ks : List Nat) : Prop := ∀ k ∈ ks, ∃ y, lookupResult k rs = some y

theorem allHeld_names (rs : List (Nat × Sample)) : AllHeld rs (rs.map Prod.fst) := fun _ => lookup_of_mem_names

theorem AllHeld.store {rs : List (Nat × Sample)} {ks : List Nat} (h : AllHeld rs ks) (d : Nat) (y : Sample) :
    AllHeld (storeResult d y rs) (d :: ks) := by
  intro k hk
  by_cases hkd : k = d
  · rw [hkd, lookup_storeResult_same]
    exact ⟨y, rfl⟩
  · rw [lookup_storeResult_other d k hkd]
    exact h k (List.mem_of_ne_of_mem hkd hk)

/-- The names in the sources of a well-formed line are among those it was checked against. -/
theorem AllHeld.sources_of_wf {rs : List (Nat × Sample)} {held : List Nat} (h : AllHeld rs held) {l : Line}
    (hwf : l.wf held = true) : AllHeld rs l.src1.names ∧ AllHeld rs l.src2.names := by
  simp only [Line.wf, Bool.and_eq_true, List.all_eq_true, List.contains_iff_mem] at hwf
  obtain ⟨⟨-, h1⟩, h2⟩ := hwf
  exact ⟨fun k hk => h k (h1 k hk), fun k hk => h k (h2 k hk)⟩

/-- Where every name is held, the reading of a scalar source is what the driver places, in every presentation `n`. -/
theorem scalarValue_eq_placeScalar {rs : List (Nat × Sample)} {x : ScalarSource} (h : AllHeld rs x.names) (n : Nat) :
    scalarValue rs x = some (placeScalar n rs x) := by
  cases x with
  | dec v => rw [scalarValue, placeScalar, bits_eq_ofInt]
  | hex p => rfl
  | result k =>
    obtain ⟨y, hy⟩ := h k (List.mem_singleton_self k)
    rw [scalarValue, placeScalar, forwardRe, hy, Option.map_some, ← forwardBits_eq_setWidth]

theorem sourceValue_eq_place {rs : List (Nat × Sample)} {x : Source} (h : AllHeld rs x.names) (n : Nat) :
    sourceValue rs x = some (placeRe n rs x, placeIm n rs x) := by
  cases x with
  | one x =>
    cases x with
    | dec v => exact congrArg (Option.map fun p => (p, 0)) (scalarValue_eq_placeScalar (x := .dec v) h n)
    | hex p => rfl
    | result k =>
      obtain ⟨y, hy⟩ := h k (List.mem_singleton_self k)
      rw [sourceValue, placeRe_result hy, placeIm_result hy, hy, Option.map_some, forwardBits_eq_setWidth,
        forwardBits_eq_setWidth]
  | pair re im =>
    obtain ⟨hre, him⟩ := List.forall_mem_append.1 h
    rw [sourceValue, scalarValue_eq_placeScalar hre n, scalarValue_eq_placeScalar him n]
    rfl

/-- The step that presents a checked line holds the result that the line's reading assigns. -/
theorem step_assemble_meets_evalLine {s : State} {l : Line} {rest : List Presentation} {held : List Nat}
    (h : s.program = l.assemble :: rest) (hheld : AllHeld s.results held) (hwf : l.wf held = true) :
    ∃ t, step s = .next t ∧ t.program = rest ∧ evalLine s.results l = some t.results ∧
      AllHeld t.results (l.dst :: held) := by
  obtain ⟨h1, h2⟩ := hheld.sources_of_wf hwf
  obtain ⟨y, hy, hstep⟩ := step_cons_of_legal h (legal_encode l.instr)
  refine ⟨_, hstep, collect_program _ _, ?_, hheld.store l.dst y⟩
  rw [evalLine, sourceValue_eq_place h1 s.presented, sourceValue_eq_place h2 s.presented]
  exact congrArg (Option.map fun y => storeResult l.dst y s.results) hy

/-- Running a program checked against any names that are held: step by step, what is held is what the reading of the
lines so far assigns. -/
theorem run_meets_evalLines {s : State} {ls : List Line} {held : List Nat} (h : s.program = ls.map Line.assemble)
    (hheld : AllHeld s.results held) (hwf : programWf held ls = true) :
    ∃ t : State, Host.Core.run core ls.length s = .next t ∧ t.program = [] ∧
      evalLines s.results ls = some t.results := by
  induction ls generalizing s held with
  | nil => exact ⟨s, rfl, h, rfl⟩
  | cons l ls ih =>
    rw [programWf, Bool.and_eq_true] at hwf
    obtain ⟨hline, hrest⟩ := hwf
    obtain ⟨u, hstep, hleft, heval, hheld'⟩ := step_assemble_meets_evalLine h hheld hline
    obtain ⟨t, hrun, hend, hevals⟩ := ih hleft hheld' hrest
    refine ⟨t, (run_succ_of_next (M := core) hstep _).trans hrun, hend, ?_⟩
    rw [evalLines, heval]
    exact hevals

/-- Settles O47: the names the program is checked against are those held at its start. -/
theorem checkedProgramsMeetTheirReading : Obligations.CheckedProgramsMeetTheirReading := fun s ls =>
  run_meets_evalLines (s := { s with program := ls.map Line.assemble }) rfl (allHeld_names s.results)

end Sys2Proof.Machine

/-! ### Rounding to the fixed-point encoding (00_scope.md section 5) -/

namespace Sys2Proof.Machine

theorem tdiv_num_den_of_nonneg {z : ℚ} (hz : 0 ≤ z) : z.num.tdiv z.den = ⌊z⌋ := by
  rw [Int.tdiv_eq_ediv_of_nonneg (Rat.num_nonneg.2 hz), Rat.floor_def']

/-- Truncation is odd. -/
theorem tdiv_num_den_neg (z : ℚ) : (-z).num.tdiv (-z).den = -z.num.tdiv z.den := by
  rw [Rat.neg_num, Rat.neg_den, Int.neg_tdiv]

/-- Without a sign, rounding half away from zero is the library's rounding half up. -/
theorem fix_of_nonneg {x : ℚ} {r : Nat} (h : 0 ≤ x * 2 ^ r) : fix x r = round (x * 2 ^ r) := by
  rw [round_eq, ← tdiv_num_den_of_nonneg (by linarith)]
  simp only [fix, if_neg h.not_gt]

/-- Below zero it is the mirror image. -/
theorem fix_of_neg {x : ℚ} {r : Nat} (h : x * 2 ^ r < 0) : fix x r = -round (-(x * 2 ^ r)) := by
  rw [round_eq, ← tdiv_num_den_of_nonneg (by linarith), ← tdiv_num_den_neg, neg_add, neg_neg, ← sub_eq_add_neg]
  simp only [fix, if_pos h]

theorem fix_neg (x : ℚ) (r : Nat) : fix (-x) r = -fix x r := by
  have hneg : -x * 2 ^ r = -(x * 2 ^ r) := neg_mul x _
  rcases lt_trichotomy (x * 2 ^ r) 0 with h | h | h
  · rw [fix_of_neg h, fix_of_nonneg (by linarith), hneg, neg_neg]
  · rw [fix_of_nonneg h.ge, fix_of_nonneg (by linarith), hneg, h, neg_zero, round_zero, neg_zero]
  · rw [fix_of_nonneg h.le, fix_of_neg (by linarith), hneg, neg_neg]

theorem fix_realOf (r : Nat) (v : Int) : fix (realOf r v) r = v := by
  rcases lt_or_ge (realOf r v * 2 ^ r) 0 with h | h
  · rw [fix_of_neg h, realOf_mul_two_pow, ← Int.cast_neg, round_intCast, neg_neg]
  · rw [fix_of_nonneg h, realOf_mul_two_pow, round_intCast]

theorem abs_sub_fix (x : ℚ) (r : Nat) : |x * 2 ^ r - fix x r| ≤ 1 / 2 := by
  rcases lt_or_ge (x * 2 ^ r) 0 with h | h
  · have hround := abs_sub_round (-(x * 2 ^ r))
    rwa [← abs_neg, neg_sub', neg_neg, ← Int.cast_neg, ← fix_of_neg h] at hround
  · rw [fix_of_nonneg h]
    exact abs_sub_round _

/-- Settles O37: `fix` is the library's rounding of the absolute value, with the sign put back. -/
theorem fixRoundsToTheNearest : Obligations.FixRoundsToTheNearest := by
  intro r x v
  obtain ⟨hlo, hhi⟩ := abs_le.1 (abs_sub_fix x r)
  exact ⟨fix_realOf r v, fix_neg x r, by linarith, hhi⟩

end Sys2Proof.Machine

/-! ### The notation on bit patterns (00_scope.md section 5) -/

namespace Sys2Proof.Machine

/-- Settles O39: `sval` is the library's signed value, and `bits` its pattern of an integer. -/
theorem extensionsAreTheLibrarys : Obligations.ExtensionsAreTheLibrarys := by
  intro n m p
  refine ⟨sval_eq_toInt n p, rfl, ?_, ?_, ?_⟩
  · rw [sext, bits_eq_ofInt, sval_eq_toInt, BitVec.signExtend]
  · rw [zext, bits_eq_ofInt, uval, BitVec.ofInt_natCast, BitVec.ofNat_toNat]
  · rw [bits_eq_ofInt, sval_eq_toInt, BitVec.ofInt_toInt]

end Sys2Proof.Machine

/-! ### The opcode map and the step (30_encoding.md section 2, 70_reset_and_hazards.md sections 1, 3 and 4) -/

namespace Sys2Proof.Machine

/-- Settles O2: each row is its operation's own word, which decodes to it. -/
theorem opcodeMapRowsDecode : Obligations.OpcodeMapRowsDecode := by
  unfold Obligations.OpcodeMapRowsDecode
  simp only [decode_eq_ok_iff]
  decide

/-- Settles O6: what evaluates is the word on port `op`, which presenting sets to the operation's. -/
theorem stepRunsTheDecodedOperation : Obligations.StepRunsTheDecodedOperation := by
  refine ⟨fun s i hprogram hi => ?_, fun s p rest i hprogram hi => ?_⟩
  · rw [step_idle hprogram, evaluate_of_decode hi]
  · rw [step_cons hprogram, evaluate_of_decode (i := i) hi]

theorem withFetchWord_program (s : State) {nbits : Nat} (h : 5 ≤ nbits) (op : ControlWord) :
    (s.withFetchWord nbits op.toNat).program = presentationOfWord op s :: s.program := by
  have hlt : op.toNat < 2 ^ nbits := op.isLt.trans_le (Nat.pow_le_pow_right two_pos h)
  rw [State.withFetchWord, Nat.mod_eq_of_lt hlt, BitVec.ofNat_toNat, BitVec.setWidth_eq]

/-- Settles O7: the presentation of the word places on each operand port what stands there. -/
theorem fetchWordRunsNext : Obligations.FetchWordRunsNext := by
  intro s i nbits hnbits
  obtain ⟨y, hy, hexec⟩ := exec_drives_blockFunction i s
  obtain ⟨z, hz, hstep⟩ := step_cons_of_legal (withFetchWord_program s hnbits (encode i)) (legal_encode i)
  obtain rfl : y = z := Option.some.inj (hy.symm.trans hz)
  exact ⟨_, _, hstep, hexec, rfl, rfl, rfl⟩

/-- Settles O49: nothing is pending, and the word on port `op` is that of `ADD.T16`. -/
theorem resetIsReadyToStep : Obligations.ResetIsReadyToStep :=
  ⟨fun _ hp => absurd hp List.not_mem_nil, fun _ => legal_encode .addT16⟩

end Sys2Proof.Machine

/-! ### The ends of the range (40_saturation.md R21, 95_test_vectors.md section 1.1) -/

namespace Sys2Proof.Machine

theorem lane_saturated_of_gt_maxOf {n : Nat} {a b : Port} (h : exactSum n a b > maxOf n) :
    lane .saturated n a b = bits 128 (maxOf n) :=
  congrArg (bits 128) (sat_of_gt_maxOf h)

theorem lane_saturated_of_lt_minOf {n : Nat} {a b : Port} (h : exactSum n a b < minOf n) :
    lane .saturated n a b = bits 128 (minOf n) :=
  congrArg (bits 128) (sat_of_lt_minOf h)

/-- Settles O34: the sum of each vector lies one beyond an end of the range, and the lane carries that end. -/
theorem saturationBoundaryVectors : Obligations.SaturationBoundaryVectors := by
  refine ⟨?_, ?_, ?_, ?_, ?_, ?_⟩
  · exact lane_saturated_of_gt_maxOf (by decide)
  · exact lane_saturated_of_lt_minOf (by decide)
  · exact lane_saturated_of_gt_maxOf (by decide)
  · exact lane_saturated_of_lt_minOf (by decide)
  · exact lane_saturated_of_gt_maxOf (by decide)
  · exact lane_saturated_of_lt_minOf (by decide)

end Sys2Proof.Machine
